-- ==== Sys2Proof/Word.lean ====
section
/-! DEFINITION. The word types of the CORE (spec/00_scope.md R1; spec/30_encoding.md R70).
A `FixedPoint64` value is an unsigned 256-bit integer `raw` that stands for `raw / 2^64`. -/

namespace Sys2Proof

/-- A `FixedPoint64` raw value, 256 bits (R1). Also the width of a register transfer (R20) and of a
ROM word (R40). -/
abbrev Word := BitVec 256

/-- The command byte and the STATUS byte are 8 bits (R14, R15). -/
abbrev Byte := BitVec 8

end Sys2Proof
end

