-- ==== Sys2Proof/Machine/Hidden.lean ====
section
/-! DEFINITION. The sequencer's hidden working state of one channel (spec/10_state.md R18), as plain
data. Its contents are meaningful only while `BUSY = 1`; after a completion they are a free value
(log 5), at reset a value the model names (log 4). -/

namespace Sys2Proof.Machine

/-- `PHASE` (R18): which engine is active within a command. The spec gives it no encoding; the
enumeration is the model's (log 6, DESIGN CHOICE). -/
inductive Phase where
  /-- started, nothing done yet: decode and domain test come next -/
  | start
  /-- the log2 engine, about to decide the fractional bit of index `IDX` (R112) -/
  | log2
  /-- `LN` only: the logarithm is in `ACC`, the constant `ln 2` is to be read (R120) -/
  | lnConst
  /-- the multiplier holds a product in `PROD` that is to be shifted and tested (R91) -/
  | narrow
  /-- the pow2 engine, about to test fractional bit `IDX`, or to finish at 20 (R134, R140) -/
  | pow2
  /-- the exp engine, fractional bits (R152, R160) -/
  | expFrac
  /-- the exp engine, integer-part bits (R152, R160) -/
  | expInt
  /-- the outcome is known: failure code `err`, the value in `ACC` -/
  | finished (err : BitVec 3)
deriving DecidableEq, Repr, Inhabited

/-- The hidden state `ACC`, `IDX`, `K`, `FRAC`, `PROD`, `PHASE` with the widths of R18. -/
structure Hidden where
  /-- the running accumulator, 256 bits -/
  acc   : Word
  /-- the table index, 5 bits -/
  idx   : BitVec 5
  /-- the integer part or shift count, 8 bits -/
  k     : BitVec 8
  /-- the fractional bits being built or consumed, 64 bits -/
  frac  : BitVec 64
  /-- the multiplier's product, 512 bits -/
  prod  : BitVec 512
  /-- which engine is active -/
  phase : Phase
deriving DecidableEq, Repr, Inhabited

end Sys2Proof.Machine
end

