-- ==== Sys2Proof/Config.lean ====
section
/-! DEFINITION. What one implementation fixes, and the free values (spec/92_eei_decisions.md, open
parameters `NCH`, `EXPPOS8`, `LATENCY`, `DATAPATH`). `LATENCY` is no constant: the input list of the
state decides when a command completes (log 1). `DATAPATH` is the rules as written (log 12). -/

namespace Sys2Proof

/-- `NCH`, the number of channels at reset: the spec's default 1 (D2, R223; log 3). Every other value
is a state with a longer channel list. -/
def Config.nch : Nat := 1

/-- `EXPPOS8`, the content of ROM slot `EXPPOS[8]`: any 256-bit value, never read by a command (R46,
R154, D13; log 11). No body: nothing can be proved about which value it is. -/
opaque Config.exppos8 : Word

/-- The hidden sequencer state after a command has ended, "unspecified" by R18: the n-th free value
(log 5). No body: nothing can be proved about which value it is. -/
opaque Config.freeHidden : Nat → Machine.Hidden

end Sys2Proof
end

