-- ==== Sys2Proof/Machine/State.lean ====
section
/-! DEFINITION. The machine's state as plain data (spec/10_state.md R10 to R25), the reasons a step
can stop, the failures of a command, the inputs, and the state after reset. -/

namespace Sys2Proof.Machine

/-- Why the model stops. There is one reason: the spec's own failures and its `FAULT` bit are next
states (R205, R212). -/
inductive Fault where
  /-- An access names a register-space index or a channel number at or beyond `NCH` (R61, R223): an
  address that does not exist. Raised by host accesses and by a completion or iteration input for an
  absent channel. SAFE: the model stops where a platform would do something of its own (log 8). -/
  | noSuchChannel
deriving DecidableEq, Repr

/-- Why the model refuses an instruction. -/
inductive Refusal where
  /-- The instruction has no meaning in the model. Raised only by an arm of `exec` that rejects its
  instruction by name; no arm does. SAFE. -/
  | notModelled (mnemonic : String)
deriving DecidableEq, Repr

/-- The typed failures of a command (R200). -/
inductive Failure where
  /-- argument outside a function's valid input range -/
  | domainError
  /-- a result or required intermediate value exceeds 256 bits -/
  | overflow
  /-- the divisor is zero -/
  | divisionByZero
  /-- the command byte is not one of the ten encodings -/
  | illegalCommand
deriving DecidableEq, Repr

/-- What ends the evaluation of a command early: a typed failure (R205) or a violated internal
invariant, a ROM read outside its table's bound (R42, R212). -/
inductive Abort where
  | failure (f : Failure)
  | tableBound
deriving DecidableEq, Repr

/-- The fields of `STATUS` (R15). Bits 6:5 are hard-wired 0 and have no storage. -/
structure Status where
  /-- bit 0 -/
  busy  : Bool
  /-- bit 1 -/
  done  : Bool
  /-- bits 4:2 -/
  err   : BitVec 3
  /-- bit 7, sticky -/
  fault : Bool
deriving DecidableEq, Repr

/-- The arbiter's request ports of one channel (R54). -/
inductive Port where
  | log2Engine
  | pow2Engine
  | expEngine
  | derivedOps
deriving DecidableEq, Repr

/-- What stands at a channel's ROM ports. At most one engine of a channel has a request outstanding
(R54), so one field holds it. -/
inductive RomPort where
  /-- no request and no word -/
  | quiet
  /-- a request that has not been granted -/
  | waiting (p : Port) (addr : BitVec 8)
  /-- the granted word, not yet used -/
  | ready (w : Word)
deriving DecidableEq, Repr

/-- One channel: its five registers (R10 to R15) and what its sequencer hides (R18, R54). -/
structure Channel where
  opa     : Word
  opb     : Word
  cmd     : Byte
  res     : Word
  status  : Status
  hidden  : Hidden
  romPort : RomPort
deriving DecidableEq, Repr

/-- What can happen to the machine from outside, or at a moment the spec leaves open (log 1). -/
inductive Event where
  /-- a host write of a 256-bit transfer to a register-space index (R20, R61, R180 to R182) -/
  | write (index : Nat) (v : Word)
  /-- a host read of a register-space index (R183) -/
  | read (index : Nat)
  /-- the host polls `STATUS` of channel `c` until `DONE` or `FAULT` (R186) -/
  | wait (c : Nat)
  /-- the sequencer of channel `c` takes its completion (R172), if it is busy -/
  | complete (c : Nat)
  /-- the sequencer of channel `c` does one hidden iteration, if it is busy (R18, R172) -/
  | advance (c : Nat)
  /-- the arbiter grants one waiting request (R55) -/
  | grant
  /-- the reset input (R240) -/
  | reset
deriving DecidableEq, Repr

/-- The whole machine. `channels` and `nextGrant` are the spec's; the other fields are the model's
own (logs 1, 2, 5, 9). -/
structure State where
  /-- the `NCH` channels (R223) -/
  channels  : List Channel
  /-- the arbiter's round-robin position: the channel it looks at first (R55) -/
  nextGrant : Nat
  /-- the channel whose sequencer the present step belongs to (log 2) -/
  active    : Nat
  /-- the inputs not yet taken, the next one first (log 1) -/
  pending   : List Event
  /-- the value the last host read returned (log 9) -/
  readData  : Word
  /-- how many free values have been drawn (log 5) -/
  freeIndex : Nat
deriving DecidableEq, Repr

/-- `STATUS` at reset: idle (R23). -/
def Status.reset : Status := { busy := false, done := false, err := 0, fault := false }

/-- The hidden state at reset: the model's choice, zero (log 4, DESIGN CHOICE). -/
def Hidden.reset : Hidden := { acc := 0, idx := 0, k := 0, frac := 0, prod := 0, phase := .start }

/-- One channel at reset (R23). -/
def Channel.reset : Channel :=
  { opa := 0, opb := 0, cmd := 0, res := 0, status := Status.reset,
    hidden := Hidden.reset, romPort := .quiet }

/-- The machine with `n` channels right after reset (R23, R223). -/
def State.resetOf (n : Nat) : State :=
  { channels := List.replicate n Channel.reset, nextGrant := 0, active := 0, pending := [],
    readData := 0, freeIndex := 0 }

/-- The machine right after reset, with the default number of channels (R23, R240). -/
def State.reset : State := State.resetOf Config.nch

end Sys2Proof.Machine
end

