-- ==== Sys2Proof/Machine/Flags.lean ====
section
/-! DEFINITION. Every flag computation: the failure codes (spec/60_exceptions.md R200), the STATUS
byte (spec/10_state.md R15) and the four conditions of a channel (spec/44_derived.md R170). -/

namespace Sys2Proof.Machine

/-- The code of a failure in `STATUS.ERR` (R200). Code 0 means none; 5, 6, 7 are never produced. -/
def Failure.code : Failure → BitVec 3
  | .domainError => 1
  | .overflow => 2
  | .divisionByZero => 3
  | .illegalCommand => 4

/-- The STATUS byte a host read sees (R15): `FAULT`, two reserved zeros, `ERR`, `DONE`, `BUSY`. -/
def Status.byte (st : Status) : Byte :=
  BitVec.ofBool st.fault ++ 0#2 ++ st.err ++ BitVec.ofBool st.done ++ BitVec.ofBool st.busy

/-- The channel accepts writes and starts: `BUSY = 0` and `FAULT = 0` (R171, R180, R184), that is
idle or done (R170). -/
def Status.accepts (st : Status) : Bool := !st.busy && !st.fault

/-- Idle (R170). -/
def Status.isIdle (st : Status) : Bool := !st.busy && !st.done && !st.fault

/-- Done (R170). -/
def Status.isDone (st : Status) : Bool := st.done && !st.busy

/-- A WAIT ends (R186): `DONE = 1` or `FAULT = 1`. -/
def Status.waitOver (st : Status) : Bool := st.done || st.fault

/-- The flags at a command start (R171): `BUSY <- 1`, `DONE <- 0`, `ERR <- 0`. -/
def Status.started (st : Status) : Status := { st with busy := true, done := false, err := 0 }

/-- The flags at a completion with failure code `e`, 0 for success (R172): `ERR <- e`, `DONE <- 1`,
`BUSY <- 0`. -/
def Status.completed (st : Status) (e : BitVec 3) : Status :=
  { st with busy := false, done := true, err := e }

/-- The flags when an internal invariant is violated (R212). -/
def Status.faulted (st : Status) : Status :=
  { st with busy := false, done := false, err := 0, fault := true }

end Sys2Proof.Machine
end

