-- ==== Sys2Proof/Machine/Rom.lean ====
section
/-! DEFINITION. The table ROM (spec/20_memory.md R40 to R51): its content, its address map and the
one read. The content is a parameter of the step relation, not state (R41, log 10). -/

namespace Sys2Proof.Machine

/-- `LOG2T`, table 0: successive square roots of 2: entry i encodes 2^(2^-(i+1)) (R44). -/
def log2T : List Word :=
  [ 0x16A09E667F3BCC909,
    0x1306FE0A31B7152DF,
    0x1172B83C7D517ADCE,
    0x10B5586CF9890F62A,
    0x1059B0D31585743AE,
    0x102C9A3E778060EE7,
    0x10163DA9FB33356D8,
    0x100B1AFA5ABCBED61,
    0x10058C86DA1C09EA2,
    0x1002C605E2E8CEC50,
    0x100162F3904051FA1,
    0x1000B175EFFDC76BA,
    0x100058BA01FB9F96D,
    0x10002C5CC37DA9492,
    0x1000162E525EE0547,
    0x10000B17255775C04,
    0x1000058B91B5BC9AE,
    0x100002C5C89D5EC6D,
    0x10000162E43F4F831,
    0x100000B1721BCFC9A ]

/-- `INVLOG2T`, table 1: their reciprocals: entry i encodes 2^(-2^-(i+1)) (R45). -/
def invLog2T : List Word :=
  [ 0xB504F333F9DE6484,
    0xD744FCCAD69D6AF4,
    0xEAC0C6E7DD24392F,
    0xF5257D152486CC2C,
    0xFA83B2DB722A033A,
    0xFD3E0C0CF486C175,
    0xFE9E115C7B8F884C,
    0xFF4ECB59511EC8A5,
    0xFFA756521C8DAED2,
    0xFFD3A751C0F7E10C,
    0xFFE9D2B2F7DB2756,
    0xFFF4E91BFF1B8C3E,
    0xFFFA747EA0040664,
    0xFFFD3A3B7814EB54,
    0xFFFE9D1CC60DDAB1,
    0xFFFF4E8E25879BFA,
    0xFFFFA7470363F451,
    0xFFFFD3A37DDA0313,
    0xFFFFE9D1BDF703AF,
    0xFFFFF4E8DEBE025E ]

/-- `EXPPOS`, table 2: entry i encodes e^(2^i) for i = 0..7 (R46); slot 8 is the parameter `EXPPOS8` (log 11). -/
def expPosT : List Word :=
  [ 0x2B7E151628AED2A6B,
    0x763992E35376B730D,
    0x3699205C4E74B0CF1B,
    0xBA4F53EA38636F85F00,
    0x87975E854001024911F8B8,
    0x47D0FF312D98B1F611E210061086,
    0x1425982CF597CD205CE3D5B4EDB031756054BD2C,
    0x195E54C5DD42177F53F4D5219DF11CA3B98DB969C591BF9BACC9526BFD504B1,
    Config.exppos8 ]

/-- `EXPNEG`, table 3: entry i encodes e^(2^-(i+1)) (R47). -/
def expNegT : List Word :=
  [ 0x1A61298E1E069BC97,
    0x148B5E3C3E8186676,
    0x12216045B6F5CCF9D,
    0x11082B577D34ED7D6,
    0x108205601127EC98E,
    0x104080AB55DE3917B,
    0x10202015600445B0C,
    0x10100802AB55777D3,
    0x10080200556001112,
    0x100400800AAB555DE,
    0x10020020015560004,
    0x10010008002AAB555,
    0x10008002000555600,
    0x100040008000AAAB5,
    0x10002000200015556,
    0x10001000080002AAB,
    0x10000800020000555,
    0x100004000080000AB,
    0x10000200002000015,
    0x10000100000800003 ]

/-- `INVEXPPOS`, table 4: entry i encodes e^(-2^i); entries 6 and 7 round to 0 (R48). -/
def invExpPosT : List Word :=
  [ 0x5E2D58D8B3BCDF1B,
    0x22A555477F039740,
    0x4B0556E084F3D1E,
    0x15FC21041027AD,
    0x1E355BBAEE8,
    0x3908D,
    0x0,
    0x0 ]

/-- `INVEXPNEG`, table 5: entry i encodes e^(-2^-(i+1)) (R49). -/
def invExpNegT : List Word :=
  [ 0x9B4597E37CB04FF4,
    0xC75F7CF564105743,
    0xE1EB51276C110C3C,
    0xF07D5FDE38151E73,
    0xF81FAB5445AEBC8A,
    0xFC07F55FF77D2494,
    0xFE01FEAB551127CC,
    0xFF007FD55FFDDE39,
    0xFF801FFAAB554446,
    0xFFC007FF555FFF77,
    0xFFE001FFEAAB5551,
    0xFFF0007FFD556000,
    0xFFF8001FFFAAAB55,
    0xFFFC0007FFF55560,
    0xFFFE0001FFFEAAAB,
    0xFFFF00007FFFD555,
    0xFFFF80001FFFFAAB,
    0xFFFFC00007FFFF55,
    0xFFFFE00001FFFFEB,
    0xFFFFF000007FFFFD ]

/-- `CONST`, table 6: `CONST[0] = LN2 = round(ln 2 · 2^64)` (R50). -/
def constT : List Word := [ 0xB17217F7D1CF79AC ]

/-- A table number, `tbl[2:0]` of a word address (R40, R43). -/
abbrev Table := BitVec 3

def tblLog2 : Table := 0
def tblInvLog2 : Table := 1
def tblExpPos : Table := 2
def tblExpNeg : Table := 3
def tblInvExpPos : Table := 4
def tblInvExpNeg : Table := 5
def tblConst : Table := 6

/-- The words of a table; its length is `LEN(tbl)` (R43). Table 7 is reserved and holds none. -/
def romTable (t : Table) : List Word :=
  match t.toNat with
  | 0 => log2T
  | 1 => invLog2T
  | 2 => expPosT
  | 3 => expNegT
  | 4 => invExpPosT
  | 5 => invExpNegT
  | 6 => constT
  | _ => []

/-- The word address `{tbl[2:0], idx[4:0]}` (R40). -/
def romAddr (t : Table) (i : BitVec 5) : BitVec 8 := t ++ i

/-- The table number of a word address (R40). -/
def romAddrTable (addr : BitVec 8) : Table := addr.extractLsb' 5 3

/-- The index of a word address (R40). -/
def romAddrIndex (addr : BitVec 8) : BitVec 5 := addr.extractLsb' 0 5

/-- `MemRead(addr, 1)` (R42): the word at `addr`, or the violated internal invariant when the index
is not below `LEN(tbl)`. -/
def memRead (addr : BitVec 8) : Except Abort Word :=
  match (romTable (romAddrTable addr))[(romAddrIndex addr).toNat]? with
  | some w => .ok w
  | none => .error .tableBound

/-- `Rom(t, i)` (R42). -/
def rom (t : Table) (i : Nat) : Except Abort Word := memRead (romAddr t (BitVec.ofNat 5 i))

end Sys2Proof.Machine
end

