-- ==== Sys2Proof/Machine/Ops.lean ====
section
/-! DEFINITION. The named operations over registers: a channel's registers by number, a command's
start, its completion, what a failure does (the whole of "trap entry", spec/60_exceptions.md R205),
what a violated invariant does (R212), and reset. -/

namespace Sys2Proof.Machine

/-- Register numbers (R10). 5, 6, 7 are reserved (R21). -/
def regOPA : BitVec 3 := 0
def regOPB : BitVec 3 := 1
def regCMD : BitVec 3 := 2
def regRES : BitVec 3 := 3
def regSTATUS : BitVec 3 := 4

/-- What a host read of register `r` returns (R20, R21, R183): `CMD` and `STATUS` zero-extended,
0 for the reserved numbers. -/
def Channel.readReg (ch : Channel) (r : BitVec 3) : Word :=
  match r.toNat with
  | 0 => ch.opa
  | 1 => ch.opb
  | 2 => ch.cmd.setWidth 256
  | 3 => ch.res
  | 4 => ch.status.byte.setWidth 256
  | _ => 0

/-- Command start (R171), which is also the whole of "trap return" (R206): it clears `ERR` and
`DONE`. The sequencer begins in its first phase; the rest of its hidden state keeps what it held,
because every command initialises what it uses (R18). -/
def Channel.startCommand (ch : Channel) (c : Byte) : Channel :=
  { ch with cmd := c, res := 0, status := ch.status.started,
            hidden := { ch.hidden with phase := .start }, romPort := .quiet }

/-- Completion with success (R172): `RES` takes the value, `ERR <- 0`. The hidden state becomes the
unspecified value `h` (R18, log 5). -/
def Channel.succeed (ch : Channel) (v : Word) (h : Hidden) : Channel :=
  { ch with res := v, status := ch.status.completed 0, hidden := h, romPort := .quiet }

/-- TAKING A FAILURE (R205): the command completes with `RES <- 0` and `ERR <-` the code; `OPA`,
`OPB`, `CMD` and `FAULT` are unchanged; nothing else is saved and no control goes anywhere. -/
def Channel.takeFailure (ch : Channel) (f : Failure) (h : Hidden) : Channel :=
  { ch with res := 0, status := ch.status.completed f.code, hidden := h, romPort := .quiet }

/-- TAKING THE FAULT (R212): `FAULT <- 1`, `BUSY`, `DONE`, `ERR`, `RES` all 0. -/
def Channel.takeFault (ch : Channel) (h : Hidden) : Channel :=
  { ch with res := 0, status := ch.status.faulted, hidden := h, romPort := .quiet }

/-- How a command's evaluation ends on its channel: success, a typed failure, or the fault. -/
def Channel.settle (ch : Channel) (r : Except Abort Word) (h : Hidden) : Channel :=
  match r with
  | .ok v => ch.succeed v h
  | .error (.failure f) => ch.takeFailure f h
  | .error .tableBound => ch.takeFault h

/-- Replace channel `c`; the others are distinct storage (R10). -/
def State.setChannel (s : State) (c : Nat) (ch : Channel) : State :=
  { s with channels := s.channels.set c ch }

/-- Draw the next free hidden state (log 5). -/
def State.freshHidden (s : State) : Hidden := Config.freeHidden s.freeIndex

/-- COMPLETION (R172), shared by all commands: while the active channel is busy, evaluate `f` on its
operands and settle the channel, in one atomic step. A channel that is not busy has no completion
enabled, and nothing happens (log 15). -/
def State.complete (s : State) (f : Word → Word → Except Abort Word) :
    Host.Outcome State Fault Refusal :=
  match s.channels[s.active]? with
  | none => .fault .noSuchChannel
  | some ch =>
    if ch.status.busy then
      .next { s.setChannel s.active (ch.settle (f ch.opa ch.opb) s.freshHidden) with
              freeIndex := s.freeIndex + 1 }
    else .next s

/-- The completion of a byte that is no command (R204): `IllegalCommand`, the operands unseen. -/
def State.completeIllegal (s : State) : Host.Outcome State Fault Refusal :=
  s.complete fun _ _ => .error (.failure .illegalCommand)

/-- The reset input (R23, R240): every channel at once is in the reset state, whatever it was doing
(R211, R241). The inputs that follow and the last read's value are the host's and stay (log 14). -/
def State.resetInput (s : State) : State :=
  { s with channels := s.channels.map fun _ => Channel.reset, nextGrant := 0 }

end Sys2Proof.Machine
end

