-- ==== Sys2Proof/Machine/Arbiter.lean ====
section
/-! DEFINITION. The ROM read arbiter (spec/20_memory.md R54 to R57): one grant at a time, round robin
over the channels that are requesting. When a grant happens is an input (log 7); which request it
serves is the round-robin order. -/

namespace Sys2Proof.Machine

/-- The channel has a request that has not been granted. -/
def Channel.requesting (ch : Channel) : Bool :=
  match ch.romPort with
  | .waiting _ _ => true
  | .quiet | .ready _ => false

/-- Channel `c` exists and is requesting. -/
def State.requestingAt (s : State) (c : Nat) : Bool :=
  match s.channels[c]? with
  | some ch => ch.requesting
  | none => false

/-- The channels in the order the arbiter looks at them: `nextGrant` first, then upwards, wrapping
at `NCH` (R55). -/
def State.grantOrder (s : State) : List Nat :=
  (List.range s.channels.length).map fun d => (s.nextGrant + d) % s.channels.length

/-- The channel the next grant serves: the first requesting one in the order (R55). -/
def State.grantee (s : State) : Option Nat := s.grantOrder.find? s.requestingAt

/-- A grant to a channel (R54): its waiting request receives the word at its address; a request
outside the tables faults the channel instead (R42, R212). -/
def Channel.granted (ch : Channel) (h : Hidden) : Channel :=
  match ch.romPort with
  | .waiting _ addr =>
    match memRead addr with
    | .ok w => { ch with romPort := .ready w }
    | .error _ => ch.takeFault h
  | .quiet | .ready _ => ch

/-- The input `grant`: one request is served and the round-robin position moves past its channel;
nothing when no channel is requesting. -/
def State.grantOne (s : State) : Host.Outcome State Fault Refusal :=
  match s.grantee with
  | none => .next s
  | some c =>
    match s.channels[c]? with
    | none => .fault .noSuchChannel
    | some ch =>
      .next { s.setChannel c (ch.granted s.freshHidden) with
              nextGrant := (c + 1) % s.channels.length, freeIndex := s.freeIndex + 1 }

end Sys2Proof.Machine
end

