-- ==== Sys2Proof/Syntax.lean ====
section
/-! DEFINITION. The commands (spec/30_encoding.md R70 to R72) and the raw command format `CMD8`. -/

namespace Sys2Proof

/-- The ten commands, one per row of spec/opcode_table.json (R71). Operands are implicit (R72): no
command carries an immediate or names a register. -/
inductive Instr where
  /-- `MUL`: floor(OPA·OPB / 2^64) (R90) -/
  | mul
  /-- `DIV`: floor(OPA·2^64 / OPB) (R95) -/
  | div
  /-- `LOG2`: log2 of OPA (R110) -/
  | log2
  /-- `LN`: natural logarithm of OPA (R120) -/
  | ln
  /-- `POW2`: 2 to the power OPA (R130) -/
  | pow2
  /-- `INVPOW2`: 2 to the power minus OPA (R138) -/
  | invPow2
  /-- `EXP`: e to the power OPA (R150) -/
  | exp
  /-- `INVEXP`: e to the power minus OPA (R158) -/
  | invExp
  /-- `POW`: OPA to the power OPB (R174) -/
  | pow
  /-- `INVPOW`: OPA to the power minus OPB (R176) -/
  | invPow
deriving DecidableEq, Repr

/-- A command byte split into its two fields, format `CMD8` (R70): `RSV` bits 7:4, `OP` bits 3:0. -/
structure Command where
  /-- reserved, must be written as 0 -/
  rsv : BitVec 4
  /-- the opcode -/
  op  : BitVec 4
deriving DecidableEq, Repr

end Sys2Proof
end

