-- ==== Sys2Proof/WellFormed.lean ====
section
/-! DEFINITION. Which raw command bytes are commands (spec/30_encoding.md R73 to R75). A term of
`Instr` has no fields, so every one is well-formed; the checks are on the raw format. -/

namespace Sys2Proof

/-- `RSV` must be 0 (R70, R74). -/
def Command.reservedClear (c : Command) : Bool := c.rsv == 0

/-- `OP` must be one of the ten opcodes 0x0 to 0x9 (R71, R73). -/
def Command.opcodeDefined (c : Command) : Bool := decide (c.op.toNat ≤ 9)

/-- A raw command is well-formed when both checks hold (R75: exactly the bytes 0x00 to 0x09). -/
def Command.wellFormed (c : Command) : Bool := c.reservedClear && c.opcodeDefined

end Sys2Proof
end

