-- ==== Sys2Proof/Decode.lean ====
section
/-! DEFINITION. Decoding and encoding of the command byte (spec/30_encoding.md R70 to R76). Decoding
is total on bytes and rejects by name. -/

namespace Sys2Proof

/-- Why a byte is no command. The machine runs such a byte as `IllegalCommand` (R204). -/
inductive DecodeError where
  /-- `RSV` is not 0 (R74) -/
  | reservedBits
  /-- `RSV` is 0 and `OP` is in 0xA to 0xF (R73) -/
  | reservedOpcode
deriving DecidableEq, Repr

/-- The fields of a byte (R70): `OP` is bits 3:0, `RSV` bits 7:4. -/
def Command.ofByte (b : Byte) : Command :=
  { rsv := b.extractLsb' 4 4, op := b.extractLsb' 0 4 }

/-- The byte of a raw command: `RSV` in the more significant position. -/
def Command.toByte (c : Command) : Byte := c.rsv ++ c.op

/-- The opcode map (R71), by the value of `OP`. -/
def opcodeOf (op : BitVec 4) : Option Instr :=
  match op.toNat with
  | 0 => some .mul
  | 1 => some .div
  | 2 => some .log2
  | 3 => some .ln
  | 4 => some .pow2
  | 5 => some .invPow2
  | 6 => some .exp
  | 7 => some .invExp
  | 8 => some .pow
  | 9 => some .invPow
  | _ => none

/-- The command a byte stands for (R75): `RSV` is looked at first (R74). -/
def decode (b : Byte) : Except DecodeError Instr :=
  let c := Command.ofByte b
  if c.reservedClear then
    match opcodeOf c.op with
    | some i => .ok i
    | none => .error .reservedOpcode
  else .error .reservedBits

/-- The opcode of a command (R71). -/
def Instr.opcode : Instr → BitVec 4
  | .mul => 0x0
  | .div => 0x1
  | .log2 => 0x2
  | .ln => 0x3
  | .pow2 => 0x4
  | .invPow2 => 0x5
  | .exp => 0x6
  | .invExp => 0x7
  | .pow => 0x8
  | .invPow => 0x9

/-- The byte of a command: `RSV` 0, `OP` its opcode (R70, R71). -/
def encode (i : Instr) : Byte := Command.toByte { rsv := 0, op := i.opcode }

/-- The byte an opcode-table word stands for: a command is its one byte, and every bit above `nbits`
is 0 (log 18). -/
def tableByte (nbits w : Nat) : Byte := BitVec.ofNat 8 (w % 2 ^ nbits)

/-- What the decoder reads from an instruction of spec/opcode_table.json whose bits are `w`. -/
def decodeTableWord (nbits w : Nat) : Option Instr :=
  match decode (tableByte nbits w) with
  | .ok i => some i
  | .error _ => none

end Sys2Proof
end

