-- ==== Sys2Proof/Machine/Operands.lean ====
section
/-! DEFINITION. The operand forms: a Q64.64 value and its integer and fractional fields
(spec/00_scope.md R1 and section 5; the engines' splits in R112, R134, R140, R152, R160). -/

namespace Sys2Proof.Machine

/-- `ONE`, the encoding of 1.0 (R1). -/
def oneQ : Word := 0x10000000000000000

/-- The integer part `x[255:64]`, that is `x >> 64` (R1). -/
def intPart (x : Word) : Nat := x.toNat / 2 ^ 64

/-- The fractional field `x[63:0]` (R1). -/
def fracPart (x : Word) : BitVec 64 := x.extractLsb' 0 64

/-- The fractional bit `f[63 - i]`, of weight `2^-(i+1)` (R134, R152). -/
def fracBit (f : BitVec 64) (i : Nat) : Bool := f.getLsbD (63 - i)

/-- `msb(v)` for `v > 0`: the index of the most significant set bit (spec/00_scope.md section 5). -/
def msb (v : Word) : Nat := Nat.log2 v.toNat

/-- The value `{k, frac}`: integer part in bits 255:64, fractional part in bits 63:0 (R112). -/
def joinParts (k : Nat) (frac : BitVec 64) : Word := BitVec.ofNat 192 k ++ frac

end Sys2Proof.Machine
end

