-- ==== Sys2Proof/Machine/Arith.lean ====
section
/-! DEFINITION. Exact multiply and divide (spec/40_core_arith.md R90 to R101): the procedures `mulQ`
and `divQ` and the commands `MUL` and `DIV`. -/

namespace Sys2Proof.Machine

/-- `mulQ(a, b)` (R91): the exact product, shifted right by 64, with the overflow test on the shifted
value. -/
def mulQ (a b : Word) : Except Abort Word :=
  let q := a.toNat * b.toNat / 2 ^ 64
  if q < 2 ^ 256 then .ok (BitVec.ofNat 256 q) else .error (.failure .overflow)

/-- `divQ(a, b)` (R96). The divisor is tested first (R97); the third test is dead (R98) and kept as
the rule states it. -/
def divQ (a b : Word) : Except Abort Word :=
  if b.toNat = 0 then .error (.failure .divisionByZero)
  else if 2 ^ 192 ≤ a.toNat then .error (.failure .overflow)
  else
    let q := a.toNat * 2 ^ 64 / b.toNat
    if q < 2 ^ 256 then .ok (BitVec.ofNat 256 q) else .error (.failure .overflow)

/-- `MUL` (R90). -/
def execMul (s : State) : Host.Outcome State Fault Refusal :=
  s.complete fun a b => mulQ a b

/-- `DIV` (R95). -/
def execDiv (s : State) : Host.Outcome State Fault Refusal :=
  s.complete fun a b => divQ a b

end Sys2Proof.Machine
end

