-- ==== Sys2Proof/Machine/Pow2.lean ====
section
/-! DEFINITION. The pow2 engine (spec/42_pow2.md R130 to R143): the fraction loop that the exp engine
shares, the procedures `pow2Q` and `invPow2Q`, and the commands `POW2` and `INVPOW2`. -/

namespace Sys2Proof.Machine

/-- The loop over fractional bits (R134, R140, R152, R160): `n` iterations are left, the next one
tests `f[63 - i]` and, when it is set, reads entry `i` of the table and multiplies it in. -/
def fracLoop (t : Table) (f : BitVec 64) : (n i : Nat) → (r : Word) → Except Abort Word
  | 0, _, r => .ok r
  | n + 1, i, r =>
    if fracBit f i then do
      let w ← rom t i
      let r' ← mulQ r w
      fracLoop t f n (i + 1) r'
    else fracLoop t f n (i + 1) r

/-- `pow2Q(x)` (R134): the domain test (R131), twenty fractional bits against `LOG2T` (R143), then
the integer contribution `2^64 << k` multiplied in last. At `x = 192·2^64 - 1` this is
`0x1FFFFE9D1BD7C04B1 << 191`, as R134, R135 and vector POW2-14 give it; the value R130 prints for that
corner lacks bit 191 and is not followed (log 19, DEDUCED). -/
def pow2Q (x : Word) : Except Abort Word :=
  if 192 * 2 ^ 64 ≤ x.toNat then .error (.failure .overflow)
  else do
    let r ← fracLoop tblLog2 (fracPart x) 20 0 oneQ
    mulQ (oneQ <<< intPart x) r

/-- `invPow2Q(x)` (R140): the domain test (R139), twenty fractional bits against `INVLOG2T` (R143),
then the right shift, which discards without rounding. -/
def invPow2Q (x : Word) : Except Abort Word :=
  if 41 ≤ intPart x then .error (.failure .domainError)
  else do
    let r ← fracLoop tblInvLog2 (fracPart x) 20 0 oneQ
    .ok (r >>> intPart x)

/-- `POW2` (R130); `OPB` is ignored. -/
def execPow2 (s : State) : Host.Outcome State Fault Refusal :=
  s.complete fun a _ => pow2Q a

/-- `INVPOW2` (R138); `OPB` is ignored. -/
def execInvPow2 (s : State) : Host.Outcome State Fault Refusal :=
  s.complete fun a _ => invPow2Q a

end Sys2Proof.Machine
end

