-- ==== Sys2Proof/Machine/Exp.lean ====
section
/-! DEFINITION. The exp engine (spec/43_exp.md R150 to R163): the procedures `expQ` and `invExpQ` and
the commands `EXP` and `INVEXP`. -/

namespace Sys2Proof.Machine

/-- The loop over integer-part bits (R152, R160): `n` iterations are left, the next one tests bit `j`
of the integer part and, when it is set, reads entry `j` of the table and multiplies it in. -/
def intLoop (t : Table) (k : Nat) : (n j : Nat) → (r : Word) → Except Abort Word
  | 0, _, r => .ok r
  | n + 1, j, r =>
    if k.testBit j then do
      let w ← rom t j
      let r' ← mulQ r w
      intLoop t k n (j + 1) r'
    else intLoop t k n (j + 1) r

/-- `expQ(a)` (R152): the guard (R151), the fraction first, then integer bits 0 to 7 (R154, R157). -/
def expQ (a : Word) : Except Abort Word :=
  if 134 * 2 ^ 64 ≤ a.toNat then .error (.failure .overflow)
  else do
    let r ← fracLoop tblExpNeg (fracPart a) 20 0 oneQ
    intLoop tblExpPos (intPart a) 8 0 r

/-- `invExpQ(a)` (R160): the domain test, its bound included (R159), then as `expQ` with the
reciprocal tables. -/
def invExpQ (a : Word) : Except Abort Word :=
  if 2 ^ 69 < a.toNat then .error (.failure .domainError)
  else do
    let r ← fracLoop tblInvExpNeg (fracPart a) 20 0 oneQ
    intLoop tblInvExpPos (intPart a) 8 0 r

/-- `EXP` (R150); `OPB` is ignored. -/
def execExp (s : State) : Host.Outcome State Fault Refusal :=
  s.complete fun a _ => expQ a

/-- `INVEXP` (R158); `OPB` is ignored. -/
def execInvExp (s : State) : Host.Outcome State Fault Refusal :=
  s.complete fun a _ => invExpQ a

end Sys2Proof.Machine
end

