-- ==== Sys2Proof/Machine/Log2.lean ====
section
/-! DEFINITION. The log2 engine (spec/41_log2.md R110 to R121): the procedure `log2Q` and the
commands `LOG2` and `LN`. -/

namespace Sys2Proof.Machine

/-- The loop of R112: `n` iterations are left, the next one decides the fractional bit of index `i`;
`m` is the mantissa, `frac` the bits decided so far. Each iteration reads `LOG2T[i]` once. -/
def log2Loop : (n i : Nat) → (m : Word) → (frac : BitVec 64) → Except Abort (BitVec 64)
  | 0, _, _, frac => .ok frac
  | n + 1, i, m, frac => do
    let t ← rom tblLog2 i
    if t.toNat ≤ m.toNat then
      let m' ← divQ m t
      log2Loop n (i + 1) m' (frac ||| (1#64 <<< (63 - i)))
    else
      log2Loop n (i + 1) m frac

/-- `log2Q(a)` (R112): domain test (R111), most significant bit (R113), normalisation by a right
shift (R114), twenty iterations. -/
def log2Q (a : Word) : Except Abort Word :=
  if a.toNat < 2 ^ 64 then .error (.failure .domainError)
  else do
    let k := msb a - 64
    let frac ← log2Loop 20 0 (a >>> k) 0
    .ok (joinParts k frac)

/-- The value of `LN` (R120): the whole logarithm first, then one multiplication by `LN2`. -/
def lnQ (a : Word) : Except Abort Word := do
  let l ← log2Q a
  let c ← rom tblConst 0
  mulQ l c

/-- `LOG2` (R110); `OPB` is ignored. -/
def execLog2 (s : State) : Host.Outcome State Fault Refusal :=
  s.complete fun a _ => log2Q a

/-- `LN` (R120); `OPB` is ignored. -/
def execLn (s : State) : Host.Outcome State Fault Refusal :=
  s.complete fun a _ => lnQ a

end Sys2Proof.Machine
end

