-- ==== Sys2Proof/Machine/Derived.lean ====
section
/-! DEFINITION. The composed commands `POW` and `INVPOW` (spec/44_derived.md R174 to R178) and the
dispatch function `Exec` of the spec (R173). -/

namespace Sys2Proof.Machine

/-- `pow2Q(mulQ(p, log2Q(a)))`, innermost first (R174, R178). -/
def powQ (a p : Word) : Except Abort Word := do
  let l ← log2Q a
  let x ← mulQ p l
  pow2Q x

/-- `invPow2Q(mulQ(p, log2Q(a)))`, innermost first (R176, R178). -/
def invPowQ (a p : Word) : Except Abort Word := do
  let l ← log2Q a
  let x ← mulQ p l
  invPow2Q x

/-- `POW` (R174): base in `OPA`, exponent in `OPB`. -/
def execPow (s : State) : Host.Outcome State Fault Refusal :=
  s.complete fun a p => powQ a p

/-- `INVPOW` (R176): base in `OPA`, exponent in `OPB`. -/
def execInvPow (s : State) : Host.Outcome State Fault Refusal :=
  s.complete fun a p => invPowQ a p

/-- The evaluation of each command on its operands: the `case` of `Exec` (R173). -/
def commandValue (i : Instr) (a b : Word) : Except Abort Word :=
  match i with
  | .mul => mulQ a b
  | .div => divQ a b
  | .log2 => log2Q a
  | .ln => lnQ a
  | .pow2 => pow2Q a
  | .invPow2 => invPow2Q a
  | .exp => expQ a
  | .invExp => invExpQ a
  | .pow => powQ a b
  | .invPow => invPowQ a b

/-- The evaluation of any command byte: illegal bytes fail before the operands are looked at (R173,
R204, R209). -/
def byteValue (c : Byte) (a b : Word) : Except Abort Word :=
  match decode c with
  | .ok i => commandValue i a b
  | .error _ => .error (.failure .illegalCommand)

/-- `Exec(c, a, b)` (R173): the pair (failure code, value); `none` stands for a violated internal
invariant (R212), which no command reaches. -/
def specExec (c : Byte) (a b : Word) : Option (BitVec 3 × Word) :=
  match byteValue c a b with
  | .ok v => some (0, v)
  | .error (.failure f) => some (f.code, 0)
  | .error .tableBound => none

end Sys2Proof.Machine
end

