-- ==== Sys2Proof/Machine/Dispatch.lean ====
section
/-! DEFINITION. One arm per command, each one direct call of its meaning (spec/30_encoding.md R71).
`exec i s` is the completion of command `i` on the active channel of `s` (spec/44_derived.md R172). -/

namespace Sys2Proof.Machine

def exec (i : Instr) (s : State) : Host.Outcome State Fault Refusal :=
  match i with
  | .mul => Sys2Proof.Machine.execMul s
  | .div => Sys2Proof.Machine.execDiv s
  | .log2 => Sys2Proof.Machine.execLog2 s
  | .ln => Sys2Proof.Machine.execLn s
  | .pow2 => Sys2Proof.Machine.execPow2 s
  | .invPow2 => Sys2Proof.Machine.execInvPow2 s
  | .exp => Sys2Proof.Machine.execExp s
  | .invExp => Sys2Proof.Machine.execInvExp s
  | .pow => Sys2Proof.Machine.execPow s
  | .invPow => Sys2Proof.Machine.execInvPow s

end Sys2Proof.Machine
end

