-- ==== Sys2Proof/Machine/Engine.lean ====
section
/-! DEFINITION. The hidden iterations of a running command, on the sequencer's registers `ACC`,
`IDX`, `K`, `FRAC`, `PROD`, `PHASE` (spec/10_state.md R18): the loops of spec/41_log2.md R112,
spec/42_pow2.md R134 and R140, spec/43_exp.md R152 and R160, run strictly one after another
(spec/44_derived.md R178), with the 512-bit product of spec/40_core_arith.md R92. They refine the
atomic completion of R172 and change nothing the host can see. The grain of one iteration is the
model's (log 6, DESIGN CHOICE). -/

namespace Sys2Proof.Machine

/-- A ROM read an iteration needs: the port it is requested on and the word address (R54). -/
abbrev RomRequest := Port × BitVec 8

/-- The hidden state when the command's value is known. -/
def Hidden.finish (h : Hidden) (v : Word) : Hidden := { h with acc := v, phase := .finished 0 }

/-- The hidden state when the command has failed: no value is kept (R205). -/
def Hidden.fail (h : Hidden) (f : Failure) : Hidden :=
  { h with acc := 0, phase := .finished f.code }

/-- `PROD <-` the full 512-bit product (R92). -/
def Hidden.multiply (h : Hidden) (a b : Word) : Hidden :=
  { h with prod := a.setWidth 512 * b.setWidth 512 }

/-- Bits 511:320 of the product are all 0: the shifted product fits (R92). -/
def Hidden.productFits (h : Hidden) : Bool := h.prod.extractLsb' 320 192 == 0

/-- The product shifted right by 64, its low 256 bits: bits 319:64 (R91, R92). -/
def Hidden.product (h : Hidden) : Word := h.prod.extractLsb' 64 256

/-- The shift-and-divide of `divQ` on a dividend below `2^192` (R96). -/
def shiftDivide (a b : Word) : Word := (a <<< 64) / b

/-- The domain test and normalisation of `log2Q` (R111, R113, R114). -/
def Hidden.enterLog2 (h : Hidden) (a : Word) : Hidden :=
  if a.toNat < 2 ^ 64 then h.fail .domainError
  else
    { h with k := BitVec.ofNat 8 (msb a - 64), acc := a >>> (msb a - 64), frac := 0, idx := 0,
             phase := .log2 }

/-- The split of an exponent into `K` and `FRAC` with the accumulator at `ONE` (R134, R140, R152,
R160). -/
def Hidden.split (h : Hidden) (x : Word) (p : Phase) : Hidden :=
  { h with k := BitVec.ofNat 8 (intPart x), frac := fracPart x, acc := oneQ, idx := 0, phase := p }

/-- The domain test of the pow2 engine, in its two forms (R131, R139). -/
def Hidden.enterPow2 (h : Hidden) (i : Instr) (x : Word) : Hidden :=
  match i with
  | .invPow2 | .invPow =>
    if 41 ≤ intPart x then h.fail .domainError else h.split x .pow2
  | .mul | .div | .log2 | .ln | .pow2 | .exp | .invExp | .pow =>
    if 192 * 2 ^ 64 ≤ x.toNat then h.fail .overflow else h.split x .pow2

/-- The first iteration of a command: domain tests and the entry into its first engine. -/
def Hidden.begin (h : Hidden) (i : Instr) (a b : Word) : Hidden :=
  match i with
  | .mul => { h.multiply a b with phase := .narrow }
  | .div =>
    if b.toNat = 0 then h.fail .divisionByZero
    else if 2 ^ 192 ≤ a.toNat then h.fail .overflow
    else h.finish (shiftDivide a b)
  | .log2 | .ln | .pow | .invPow => h.enterLog2 a
  | .pow2 | .invPow2 => h.enterPow2 i a
  | .exp => if 134 * 2 ^ 64 ≤ a.toNat then h.fail .overflow else h.split a .expFrac
  | .invExp => if 2 ^ 69 < a.toNat then h.fail .domainError else h.split a .expFrac

/-- One iteration of the log2 loop with the threshold `t` (R112). -/
def Hidden.log2Bit (h : Hidden) (t : Word) : Hidden :=
  if t.toNat ≤ h.acc.toNat then
    { h with frac := h.frac ||| (1#64 <<< (63 - h.idx.toNat)), acc := shiftDivide h.acc t,
             idx := h.idx + 1 }
  else { h with idx := h.idx + 1 }

/-- The logarithm the log2 engine has built: `{K, FRAC}` (R112). -/
def Hidden.logValue (h : Hidden) : Word := joinParts h.k.toNat h.frac

/-- What follows the twentieth iteration of the log2 engine (R178): the value of `LOG2`, the
constant's multiplication for `LN`, the exponent's multiplication for `POW` and `INVPOW`. -/
def Hidden.afterLog2 (h : Hidden) (i : Instr) (b : Word) : Hidden :=
  match i with
  | .ln => { h with acc := h.logValue, phase := .lnConst }
  | .pow | .invPow => { h.multiply b h.logValue with phase := .narrow }
  | .mul | .div | .log2 | .pow2 | .invPow2 | .exp | .invExp => h.finish h.logValue

/-- What follows the multiplier's shift and test (R91, R178). -/
def Hidden.afterNarrow (h : Hidden) (i : Instr) : Hidden :=
  if h.productFits then
    match i with
    | .pow | .invPow => h.enterPow2 i h.product
    | .mul | .div | .log2 | .ln | .pow2 | .invPow2 | .exp | .invExp => h.finish h.product
  else h.fail .overflow

/-- Multiply one selected table entry into the accumulator and go to the next index (R134, R152). -/
def Hidden.mulEntry (h : Hidden) (w : Word) : Hidden :=
  let h' := h.multiply h.acc w
  if h'.productFits then { h' with acc := h'.product, idx := h.idx + 1 } else h'.fail .overflow

/-- The integer contribution of the pow2 engine: a left shift of `ONE` multiplied in, or a right
shift (R134, R140). -/
def Hidden.scale (h : Hidden) (i : Instr) : Hidden :=
  match i with
  | .invPow2 | .invPow => h.finish (h.acc >>> h.k.toNat)
  | .mul | .div | .log2 | .ln | .pow2 | .exp | .invExp | .pow =>
    let h' := h.multiply (oneQ <<< h.k.toNat) h.acc
    if h'.productFits then h'.finish h'.product else h'.fail .overflow

/-- The table of the pow2 engine's factors, by content (R143). -/
def pow2Table (i : Instr) : Table :=
  match i with
  | .invPow2 | .invPow => tblInvLog2
  | .mul | .div | .log2 | .ln | .pow2 | .exp | .invExp | .pow => tblLog2

/-- The table of the exp engine's fractional factors (R152, R160). -/
def expFracTable (i : Instr) : Table :=
  match i with
  | .invExp => tblInvExpNeg
  | .mul | .div | .log2 | .ln | .pow2 | .invPow2 | .exp | .pow | .invPow => tblExpNeg

/-- The table of the exp engine's integer factors (R152, R160). -/
def expIntTable (i : Instr) : Table :=
  match i with
  | .invExp => tblInvExpPos
  | .mul | .div | .log2 | .ln | .pow2 | .invPow2 | .exp | .pow | .invPow => tblExpPos

/-- The ROM word the next iteration needs, if any: every entry in turn for the log2 engine, an entry
only when its bit is set for the others (R112, R134, R140, R152, R160, R52). -/
def Hidden.request (h : Hidden) (i : Instr) : Option RomRequest :=
  match h.phase with
  | .log2 => some (.log2Engine, romAddr tblLog2 h.idx)
  | .lnConst => some (.derivedOps, romAddr tblConst 0)
  | .pow2 =>
    if h.idx.toNat < 20 ∧ fracBit h.frac h.idx.toNat then
      some (.pow2Engine, romAddr (pow2Table i) h.idx)
    else none
  | .expFrac =>
    if h.idx.toNat < 20 ∧ fracBit h.frac h.idx.toNat then
      some (.expEngine, romAddr (expFracTable i) h.idx)
    else none
  | .expInt =>
    if h.idx.toNat < 8 ∧ h.k.getLsbD h.idx.toNat then
      some (.expEngine, romAddr (expIntTable i) h.idx)
    else none
  | .start | .narrow | .finished _ => none

/-- One iteration of command `i` on operands `a`, `b`, with the ROM word `w` that `request` named (any
word when it named none). A finished command stays as it is until the completion. -/
def Hidden.iterate (h : Hidden) (i : Instr) (a b w : Word) : Hidden :=
  match h.phase with
  | .start => h.begin i a b
  | .log2 =>
    if h.idx.toNat < 19 then h.log2Bit w else (h.log2Bit w).afterLog2 i b
  | .lnConst => { h.multiply h.acc w with phase := .narrow }
  | .narrow => h.afterNarrow i
  | .pow2 =>
    if h.idx.toNat < 20 then
      if fracBit h.frac h.idx.toNat then h.mulEntry w else { h with idx := h.idx + 1 }
    else h.scale i
  | .expFrac =>
    if h.idx.toNat < 20 then
      if fracBit h.frac h.idx.toNat then h.mulEntry w else { h with idx := h.idx + 1 }
    else { h with idx := 0, phase := .expInt }
  | .expInt =>
    if h.idx.toNat < 8 then
      if h.k.getLsbD h.idx.toNat then h.mulEntry w else { h with idx := h.idx + 1 }
    else h.finish h.acc
  | .finished _ => h

/-- One hidden iteration of a busy channel (R18): an iteration that needs a ROM word first places its
request, waits for the grant, and then uses the word (R54). An illegal byte runs no engine (R204). -/
def Channel.advance (ch : Channel) : Channel :=
  match decode ch.cmd with
  | .error _ => { ch with hidden := ch.hidden.fail .illegalCommand }
  | .ok i =>
    match ch.hidden.request i, ch.romPort with
    | none, _ => { ch with hidden := ch.hidden.iterate i ch.opa ch.opb 0 }
    | some q, .quiet => { ch with romPort := .waiting q.1 q.2 }
    | some _, .waiting _ _ => ch
    | some _, .ready w =>
      { ch with hidden := ch.hidden.iterate i ch.opa ch.opb w, romPort := .quiet }

/-- The input `advance c`: one hidden iteration of channel `c` if it is busy, otherwise nothing. -/
def State.advance (s : State) (c : Nat) : Host.Outcome State Fault Refusal :=
  match s.channels[c]? with
  | none => .fault .noSuchChannel
  | some ch => if ch.status.busy then .next (s.setChannel c ch.advance) else .next s

end Sys2Proof.Machine
end

