-- ==== Sys2Proof/Machine/HostPort.lean ====
section
/-! DEFINITION. Host accesses at the register interface (spec/44_derived.md R180 to R187,
spec/10_state.md R20, R21, spec/20_memory.md R61): every access is one whole register. -/

namespace Sys2Proof.Machine

/-- The register-space index of register `r` of channel `c`: `8·c + n` (R61). -/
def regIndex (c : Nat) (r : BitVec 3) : Nat := 8 * c + r.toNat

/-- The channel a register-space index belongs to (R61). -/
def indexChannel (index : Nat) : Nat := index / 8

/-- The register number of a register-space index (R61). -/
def indexReg (index : Nat) : BitVec 3 := BitVec.ofNat 3 index

/-- A host write of a 256-bit transfer to register `r` (R180 to R182, R184): ignored while busy or
faulted, and for `RES`, `STATUS` and the reserved numbers; a write of `CMD` takes bits 7:0 and starts
a command (R20, R171). -/
def Channel.writeReg (ch : Channel) (r : BitVec 3) (v : Word) : Channel :=
  if ch.status.accepts then
    match r.toNat with
    | 0 => { ch with opa := v }
    | 1 => { ch with opb := v }
    | 2 => ch.startCommand (v.setWidth 8)
    | _ => ch
  else ch

/-- The input `write`. -/
def State.hostWrite (s : State) (index : Nat) (v : Word) : Host.Outcome State Fault Refusal :=
  match s.channels[indexChannel index]? with
  | none => .fault .noSuchChannel
  | some ch => .next (s.setChannel (indexChannel index) (ch.writeReg (indexReg index) v))

/-- The input `read` (R183): the value goes to the host; no register changes. -/
def State.hostRead (s : State) (index : Nat) : Host.Outcome State Fault Refusal :=
  match s.channels[indexChannel index]? with
  | none => .fault .noSuchChannel
  | some ch => .next { s with readData := ch.readReg (indexReg index) }

/-- One poll of a WAIT (R186): the host reads `STATUS` of the channel. -/
def State.poll (s : State) (ch : Channel) : State := { s with readData := ch.readReg regSTATUS }

end Sys2Proof.Machine
end

