-- ==== Sys2Proof/Machine/Sequencer.lean ====
section
/-! DEFINITION. Who takes the next step: the sequencer of a busy channel, whose started byte is the
machine's fetch (spec/20_memory.md R66; spec/44_derived.md R172), or the next input. -/

namespace Sys2Proof.Machine

/-- Run the command whose byte is in `CMD` on the active channel: a byte that is no command completes
with `IllegalCommand` (R172, R173, R204). -/
def State.runByte (s : State) (c : Byte) : Host.Outcome State Fault Refusal :=
  match decode c with
  | .ok i => exec i s
  | .error _ => s.completeIllegal

/-- The sequencer of channel `c` takes its step: the completion if the channel is busy, nothing
otherwise (R172). -/
def State.runChannel (s : State) (c : Nat) : Host.Outcome State Fault Refusal :=
  match s.channels[c]? with
  | none => .fault .noSuchChannel
  | some ch =>
    if ch.status.busy then State.runByte { s with active := c } ch.cmd else .next s

/-- The lowest-numbered busy channel: the one that completes when no input is pending (R262, log 1). -/
def State.firstBusy (s : State) : Option Nat := s.channels.findIdx? fun ch => ch.status.busy

/-- WAIT on channel `c` (R186): the poll that sees `DONE` or `FAULT` ends it. Until then it stays the
next input, and time passes: channel `c` completes if it is busy, else the lowest-numbered busy channel
does, else the host polls in vain (log 13). -/
def State.waitFor (s : State) (c : Nat) : Host.Outcome State Fault Refusal :=
  match s.channels[c]? with
  | none => .fault .noSuchChannel
  | some ch =>
    if ch.status.waitOver then .next (s.poll ch)
    else
      let s' := { s with pending := .wait c :: s.pending }
      if ch.status.busy then s'.runChannel c
      else
        match s.firstBusy with
        | some c' => s'.runChannel c'
        | none => .next (s'.poll ch)

/-- What the input `e` does, the inputs after it being `s.pending`. -/
def State.takeEvent (s : State) (e : Event) : Host.Outcome State Fault Refusal :=
  match e with
  | .write index v => s.hostWrite index v
  | .read index => s.hostRead index
  | .wait c => s.waitFor c
  | .complete c => s.runChannel c
  | .advance c => s.advance c
  | .grant => s.grantOne
  | .reset => .next s.resetInput

/-- One step: the next input, or, when none is pending, the completion of the lowest-numbered busy
channel; an idle machine waits (R243, R262, log 1). -/
def State.stepOnce (s : State) : Host.Outcome State Fault Refusal :=
  match s.pending with
  | e :: rest => State.takeEvent { s with pending := rest } e
  | [] =>
    match s.firstBusy with
    | some c => s.runChannel c
    | none => .next s

/-- Channel `c` made to hold a started command with byte `c` (the state R171 leaves), whatever it held
before; its operands stay. -/
def Channel.withStarted (ch : Channel) (c : Byte) : Channel :=
  Channel.startCommand { ch with status := { ch.status with fault := false } } c

/-- The state in which the very next step runs the command byte `c` on channel 0 (log 2). -/
def State.withStartedByte (s : State) (c : Byte) : State :=
  match s.channels with
  | [] => s
  | ch :: rest =>
    { s with channels := ch.withStarted c :: rest,
             pending := match s.pending with
               | [] => []
               | e :: es => .complete 0 :: e :: es }

end Sys2Proof.Machine
end

