-- ==== Sys2Proof/Machine/Step.lean ====
section
/-! DEFINITION. The step of the machine, and the state that makes it run a given command next. Both
only call operations of Machine/Sequencer.lean. -/

namespace Sys2Proof.Machine

/-- One step of the machine. -/
def step (s : State) : Host.Outcome State Fault Refusal := s.stepOnce

/-- `s` with the command word stored where the next step takes its command from: the `CMD` register of
channel 0, started (R171), and that channel's completion the next thing to happen (log 2). -/
def State.withFetchWord (s : State) (nbits w : Nat) : State :=
  s.withStartedByte (tableByte nbits w)

end Sys2Proof.Machine
end

