-- ==== Sys2Proof/Machine/Asm.lean ====
section
/-! DEFINITION. The host-program notation of spec/30_encoding.md R79 and R80, as a layer over `step`:
what the HOST does at the register interface. The branches and the host variables are the host's, not
the CORE's, and are no part of `State`. -/

namespace Sys2Proof.Machine

/-- A value in a host statement: a constant or a host variable (variables are numbered). -/
inductive HostVal where
  | lit (v : Word)
  | var (x : Nat)
deriving DecidableEq, Repr

/-- The primitive statements (R79), with the channel suffix written out and labels resolved to
statement numbers. -/
inductive HostStmt where
  /-- `WR reg@c, v` -/
  | wr (c : Nat) (r : BitVec 3) (v : HostVal)
  /-- `RD reg@c -> x` -/
  | rd (c : Nat) (r : BitVec 3) (x : Nat)
  /-- `WAIT@c` -/
  | wait (c : Nat)
  /-- `BERR label` -/
  | berr (target : Nat)
  /-- `B label` -/
  | b (target : Nat)
  /-- `HALT` -/
  | halt
deriving DecidableEq, Repr

/-- The host's own state: the next statement, its variables, the last STATUS read (of whichever
channel), and whether it has halted. A variable that was never written reads as 0 (log 16, DESIGN
CHOICE). -/
structure HostCpu where
  pos    : Nat
  vars   : List (Nat × Word)
  status : Byte
  halted : Bool
deriving DecidableEq, Repr

/-- The host before its first statement. The remembered STATUS is 0, so a `BERR` before any STATUS read
is not taken: R79 speaks of "the last STATUS read" only (log 16, DESIGN CHOICE). -/
def HostCpu.start : HostCpu := { pos := 0, vars := [], status := 0, halted := false }

def HostCpu.value (h : HostCpu) (v : HostVal) : Word :=
  match v with
  | .lit w => w
  | .var x => (h.vars.lookup x).getD 0

/-- `STATUS.ERR` of the last STATUS read (R79, `BERR`). -/
def HostCpu.lastErr (h : HostCpu) : BitVec 3 := h.status.extractLsb' 2 3

/-- Take a value the host read: into a variable and, when the register is `STATUS`, as the last STATUS
read. -/
def HostCpu.take (h : HostCpu) (r : BitVec 3) (x : Nat) (v : Word) : HostCpu :=
  { h with pos := h.pos + 1, vars := (x, v) :: h.vars,
           status := if r = regSTATUS then v.setWidth 8 else h.status }

/-- One register access or poll of the host: it is the machine's next input. -/
def State.issue (s : State) (e : Event) : Host.Outcome State Fault Refusal :=
  step { s with pending := e :: s.pending }

/-- One statement of a host program (R79). A WAIT takes as many of these as it polls. -/
def hostStep (prog : List HostStmt) (h : HostCpu) (s : State) :
    Host.Outcome (HostCpu × State) Fault Refusal :=
  match prog[h.pos]? with
  | none | some .halt => .next ({ h with halted := true }, s)
  | some (.b target) => .next ({ h with pos := target }, s)
  | some (.berr target) =>
    .next ({ h with pos := if h.lastErr = 0 then h.pos + 1 else target }, s)
  | some (.wr c r v) =>
    match s.issue (.write (regIndex c r) (h.value v)) with
    | .next t => .next ({ h with pos := h.pos + 1 }, t)
    | .fault f => .fault f
    | .refused f => .refused f
  | some (.rd c r x) =>
    match s.issue (.read (regIndex c r)) with
    | .next t => .next (h.take r x t.readData, t)
    | .fault f => .fault f
    | .refused f => .refused f
  | some (.wait c) =>
    match s.issue (.wait c) with
    | .next t =>
      if s.pending.length < t.pending.length then .next (h, { t with pending := s.pending })
      else .next ({ h with pos := h.pos + 1, status := t.readData.setWidth 8 }, t)
    | .fault f => .fault f
    | .refused f => .refused f

/-- Whether a command reads `OPB` (R71, R72). -/
def readsOpb (i : Instr) : Bool :=
  match i with
  | .mul | .div | .pow | .invPow => true
  | .log2 | .ln | .pow2 | .invPow2 | .exp | .invExp => false

/-- A bare mnemonic is `WR CMD, <its byte>` (R80), on the channel of its suffix, 0 without one (R79).
That a pseudo-statement may carry a suffix, and that it then stands on every statement of the expansion,
is the model's reading (log 20, DESIGN CHOICE). -/
def bareMnemonic (c : Nat) (i : Instr) : HostStmt :=
  .wr c regCMD (.lit ((encode i).setWidth 256))

/-- A mnemonic with operands loads them first and waits (R80), all on channel `c` (log 20); `b` is used
by the two-operand commands only. -/
def mnemonicWithOperands (c : Nat) (i : Instr) (a b : HostVal) : List HostStmt :=
  [.wr c regOPA a] ++ (if readsOpb i then [.wr c regOPB b] else []) ++ [bareMnemonic c i, .wait c]

/-- `MOV OPA, RES` and `MOV OPB, RES` (R80), through the fresh host variable `x`, both on channel `c`
(log 20). -/
def moveFromRes (c : Nat) (r : BitVec 3) (x : Nat) : List HostStmt :=
  [.rd c regRES x, .wr c r (.var x)]

end Sys2Proof.Machine
end

