-- ==== Sys2Proof/Safety.lean ====
section
/-! DEFINITION. The terms the statements use: what a completion leaves, the invariants of the spec and
of the hidden engines, which inputs name registers that exist, and the integer reading of the engine
rules (spec/41_log2.md R112, 42_pow2.md R134 and R140, 43_exp.md R152 and R160) without widths,
failures or ROM addresses. -/

namespace Sys2Proof.Machine

/-! ### What a completion leaves -/

/-- The active channel is busy, and its operands are `a` and `b`. -/
def State.Running (s : State) (a b : Word) : Prop :=
  ∃ ch, s.channels[s.active]? = some ch ∧ ch.status.busy = true ∧ ch.opa = a ∧ ch.opb = b

/-- From `s` to `t` the active channel's command completed with code `e` and value `v`, and nothing
else the spec names changed (R172, R205): `OPA`, `OPB`, `CMD`, `FAULT` of that channel, every other
channel whole, the arbiter, and the model's own inputs and last read. The hidden state of the channel
is unspecified afterwards (R18) and is not mentioned. There is no memory but the ROM, which is no part
of the state (R41). -/
def State.Completes (s t : State) (e : BitVec 3) (v : Word) : Prop :=
  ∃ ch ch', s.channels[s.active]? = some ch ∧ t.channels[s.active]? = some ch' ∧
    ch'.opa = ch.opa ∧ ch'.opb = ch.opb ∧ ch'.cmd = ch.cmd ∧ ch'.res = v ∧
    ch'.status = { busy := false, done := true, err := e, fault := ch.status.fault } ∧
    (∀ c, c ≠ s.active → t.channels[c]? = s.channels[c]?) ∧
    t.active = s.active ∧ t.nextGrant = s.nextGrant ∧ t.pending = s.pending ∧
    t.readData = s.readData

/-- The five registers of a channel, all that the host can see of it (R10). -/
structure Registers where
  opa    : Word
  opb    : Word
  cmd    : Byte
  res    : Word
  status : Status
deriving DecidableEq, Repr

def Channel.registers (ch : Channel) : Registers :=
  { opa := ch.opa, opb := ch.opb, cmd := ch.cmd, res := ch.res, status := ch.status }

/-- The registers of channel `c`, if it exists. -/
def State.registersAt (s : State) (c : Nat) : Option Registers :=
  s.channels[c]?.map Channel.registers

/-! ### The invariant of the STATUS fields -/

/-- R17 (a) to (f). -/
def Channel.StatusInv (ch : Channel) : Prop :=
  ¬ (ch.status.busy = true ∧ ch.status.done = true) ∧
  (ch.status.err ≠ 0 → ch.status.done = true) ∧
  (ch.status.err ≠ 0 → ch.res = 0) ∧
  (ch.status.busy = true → ch.res = 0 ∧ ch.status.err = 0) ∧
  (ch.status.fault = true → ch.status.busy = false ∧ ch.status.done = false) ∧
  ch.status.err.toNat < 5

def State.StatusInv (s : State) : Prop := ∀ ch ∈ s.channels, ch.StatusInv

/-! ### The hidden engines -/

/-- The word an iteration uses when its ROM read is answered at once. -/
def Hidden.wordFor (h : Hidden) (i : Instr) : Word :=
  match h.request i with
  | none => 0
  | some q =>
    match memRead q.2 with
    | .ok w => w
    | .error _ => 0

/-- `n` iterations of command `i` on operands `a`, `b`, each ROM read answered at once. -/
def runEngine (i : Instr) (a b : Word) : (n : Nat) → Hidden → Hidden
  | 0, h => h
  | n + 1, h => runEngine i a b n (h.iterate i a b (h.wordFor i))

/-- The hidden state at a command's start, whatever it held before. -/
def Hidden.atStart (h : Hidden) : Hidden := { h with phase := .start }

/-- What holds of a busy channel whose byte is the command `i`: its hidden state lies on the path of
the engine from the start of this command on these operands, and what stands at its ROM port belongs to
the read the next iteration needs. -/
def Channel.OnPath (ch : Channel) (i : Instr) : Prop :=
  (∃ (n : Nat) (h : Hidden), ch.hidden = runEngine i ch.opa ch.opb n h.atStart) ∧
  (∀ p addr, ch.romPort = .waiting p addr → ch.hidden.request i = some (p, addr)) ∧
  (∀ w, ch.romPort = .ready w → ∃ q, ch.hidden.request i = some q ∧ memRead q.2 = .ok w)

/-- The invariant of the engines and the ROM ports: a busy channel is on the path of its command, or,
for a byte that is no command, reads nothing; a channel that is not busy has nothing at its port. -/
def Channel.EngineInv (ch : Channel) : Prop :=
  (ch.status.busy = true → ∀ i, decode ch.cmd = .ok i → ch.OnPath i) ∧
  (ch.status.busy = true → ∀ e, decode ch.cmd = .error e →
    ch.romPort = .quiet ∧
      (ch.hidden.phase = .start ∨ (ch.hidden.phase = .finished 4 ∧ ch.hidden.acc = 0))) ∧
  (ch.status.busy = false → ch.romPort = .quiet)

def State.EngineInv (s : State) : Prop := ∀ ch ∈ s.channels, ch.EngineInv

/-- No channel has faulted (R212). -/
def State.FaultFree (s : State) : Prop := ∀ ch ∈ s.channels, ch.status.fault = false

/-- The reads of each command: table number and the indices below a bound (R52). -/
def readsOf (i : Instr) : List (Table × Nat) :=
  match i with
  | .mul | .div => []
  | .log2 => [(tblLog2, 20)]
  | .ln => [(tblLog2, 20), (tblConst, 1)]
  | .pow2 => [(tblLog2, 20)]
  | .invPow2 => [(tblInvLog2, 20)]
  | .exp => [(tblExpNeg, 20), (tblExpPos, 8)]
  | .invExp => [(tblInvExpNeg, 20), (tblInvExpPos, 6)]
  | .pow => [(tblLog2, 20)]
  | .invPow => [(tblLog2, 20), (tblInvLog2, 20)]

/-! ### Inputs that name channels that exist -/

/-- The input names only channels below `n` (R61, R223). -/
def Event.inRange (n : Nat) (e : Event) : Bool :=
  match e with
  | .write index _ | .read index => decide (indexChannel index < n)
  | .wait c | .complete c | .advance c => decide (c < n)
  | .grant | .reset => true

/-- Every pending input names a channel that exists: what a run needs to be safe. -/
def State.InputsExist (s : State) : Prop :=
  ∀ e ∈ s.pending, e.inRange s.channels.length = true

/-- The one channel an input concerns, where there is one: a WAIT lets time pass for others, a grant
goes where the round robin points, and a reset is for all. -/
def Event.onlyChannel (e : Event) : Option Nat :=
  match e with
  | .write index _ | .read index => some (indexChannel index)
  | .complete c | .advance c => some c
  | .wait _ | .grant | .reset => none

/-- How many channels the arbiter looks at before channel `c`, in round-robin order (R55): 0 for the
channel it looks at first. -/
def State.grantDistance (s : State) (c : Nat) : Nat :=
  (c + s.channels.length - s.nextGrant % s.channels.length) % s.channels.length

/-- `k` steps, stopping at the first that does not answer a next state. -/
def runSteps : Nat → State → Host.Outcome State Fault Refusal
  | 0, s => .next s
  | k + 1, s =>
    match step s with
    | .next t => runSteps k t
    | .fault f => .fault f
    | .refused f => .refused f

/-! ### The engine rules over the integers -/

/-- The product of the selected fractional factors (R134, R140, R152, R160): from `ONE`, entry `i` for
fractional bit `i`, in ascending order, each product floored to 64 fractional bits. -/
def refFraction (tbl : List Word) (x : Nat) : Nat :=
  (List.range 20).foldl
    (fun r i => if x.testBit (63 - i) then r * (tbl.getD i 0).toNat / 2 ^ 64 else r) (2 ^ 64)

/-- The product of the selected integer factors, from `r` (R152, R160). -/
def refInteger (tbl : List Word) (k r : Nat) : Nat :=
  (List.range 8).foldl
    (fun r j => if k.testBit j then r * (tbl.getD j 0).toNat / 2 ^ 64 else r) r

/-- `log2` by bit decomposition (R112): the pair of mantissa and fraction through twenty thresholds,
below the integer part. -/
def refLog2 (a : Nat) : Nat :=
  let k := Nat.log2 a - 64
  let p := (List.range 20).foldl
    (fun (p : Nat × Nat) i =>
      let t := (log2T.getD i 0).toNat
      if t ≤ p.1 then (p.1 * 2 ^ 64 / t, p.2 + 2 ^ (63 - i)) else p)
    (a / 2 ^ k, 0)
  k * 2 ^ 64 + p.2

/-- 2 to the power x (R134, R135): the fractional product shifted left by the integer part. -/
def refPow2 (x : Nat) : Nat := refFraction log2T x * 2 ^ (x / 2 ^ 64)

/-- 2 to the power minus x (R140): the fractional product shifted right by the integer part. -/
def refInvPow2 (x : Nat) : Nat := refFraction invLog2T x / 2 ^ (x / 2 ^ 64)

/-- e to the power a (R152), without the overflow tests. -/
def refExp (a : Nat) : Nat := refInteger expPosT (a / 2 ^ 64) (refFraction expNegT a)

/-- e to the power minus a (R160). -/
def refInvExp (a : Nat) : Nat := refInteger invExpPosT (a / 2 ^ 64) (refFraction invExpNegT a)

end Sys2Proof.Machine
end

