-- ==== Sys2Proof/Certificates/Slice0/Obligations.lean ====
section
/-! DEFINITION. The statements for the provers. Each docstring names the rule of spec/ it formalises.
"Completes" is `State.Completes` of Sys2Proof/Safety.lean: the new values of the active channel's
registers and the frame (every other register of the channel, every other channel, the arbiter, the
inputs). The only memory is the ROM, which is not part of the state (R41), so a frame has no byte of
memory to speak of. -/

open Sys2Proof Sys2Proof.Machine

/-! ### Encoding -/

/-- R75: the ten bytes of the opcode map, and every other byte rejected. -/
def Obligations.ExactlyTenBytesAreCommands : Prop :=
  decode 0x00 = .ok .mul ∧ decode 0x01 = .ok .div ∧ decode 0x02 = .ok .log2 ∧
  decode 0x03 = .ok .ln ∧ decode 0x04 = .ok .pow2 ∧ decode 0x05 = .ok .invPow2 ∧
  decode 0x06 = .ok .exp ∧ decode 0x07 = .ok .invExp ∧ decode 0x08 = .ok .pow ∧
  decode 0x09 = .ok .invPow ∧
  ∀ b : Byte, 9 < b.toNat → ∃ e, decode b = .error e

/-- R70, R71: decoding the encoding of a command gives the command, and no byte but its encoding
decodes to it. -/
def Obligations.DecodeAndEncodeAgree : Prop :=
  ∀ (i : Instr) (b : Byte), decode b = .ok i ↔ encode i = b

/-! ### A step runs the decoded command -/

/-- The sequencer's step at a busy channel whose byte decodes to `i` is `exec i` with that channel
active: when its completion is the next input, or when no input is pending and it is the lowest-numbered
busy channel (the second case is the model's choice, log 1). -/
def Obligations.StepRunsTheDecodedCommand : Prop :=
  ∀ (s : State) (c : Nat) (ch : Channel) (i : Instr),
    s.channels[c]? = some ch → ch.status.busy = true → decode ch.cmd = .ok i →
    (∀ rest, s.pending = .complete c :: rest →
      step s = exec i { s with pending := rest, active := c }) ∧
    (s.pending = [] →
      (∀ d dh, d < c → s.channels[d]? = some dh → dh.status.busy = false) →
      step s = exec i { s with active := c })

/-- R172, R173: the completion writes the pair `Exec(CMD, OPA, OPB)`, for every command byte, and
changes no other register. -/
def Obligations.CompletionFollowsSpecExec : Prop :=
  ∀ (s : State) (c : Nat) (ch : Channel) (rest : List Event),
    s.pending = .complete c :: rest → s.channels[c]? = some ch → ch.status.busy = true →
    ∃ e v t, specExec ch.cmd ch.opa ch.opb = some (e, v) ∧ step s = .next t ∧
      State.Completes { s with pending := rest, active := c } t e v

/-- R73, R74: a byte that is none of 0x00 to 0x09 completes with `IllegalCommand`, whatever the
operands, and written to `CMD` of a channel that is neither busy nor faulted it starts a command that
completes so and has no other effect. -/
def Obligations.IllegalBytesCompleteAsIllegalCommand : Prop :=
  (∀ (s : State) (c : Nat) (ch : Channel) (rest : List Event),
    s.pending = .complete c :: rest → s.channels[c]? = some ch → ch.status.busy = true →
    (ch.cmd.extractLsb' 4 4 ≠ 0 ∨ 9 < (ch.cmd.extractLsb' 0 4).toNat) →
    ∃ t, step s = .next t ∧ State.Completes { s with pending := rest, active := c } t 4 0) ∧
  ∀ (s : State) (c : Nat) (ch : Channel) (v : Word) (rest : List Event),
    s.pending = .write (8 * c + 2) v :: .complete c :: rest → s.channels[c]? = some ch →
    ch.status.busy = false → ch.status.fault = false →
    (v.extractLsb' 4 4 ≠ 0 ∨ 9 < (v.extractLsb' 0 4).toNat) →
    ∃ t, runSteps 2 s = .next t ∧ t.pending = rest ∧
      t.registersAt c = some
        { opa := ch.opa, opb := ch.opb, cmd := v.extractLsb' 0 8, res := 0,
          status := { busy := false, done := true, err := 4, fault := false } } ∧
      ∀ d, d ≠ c → t.channels[d]? = s.channels[d]?

/-- R172: a channel that is not busy has no completion enabled; `exec` then changes nothing (how the
model treats a step that is not enabled: log 15). -/
def Obligations.NothingCompletesOnAChannelThatIsNotBusy : Prop :=
  ∀ (i : Instr) (s : State) (ch : Channel),
    s.channels[s.active]? = some ch → ch.status.busy = false → exec i s = .next s

/-! ### The ten commands: value, failure and frame -/

/-- R90: `MUL` gives the floored product, or `Overflow` exactly from `2^320` on. -/
def Obligations.MulCompletesWithFlooredProduct : Prop :=
  encode .mul = 0x00 ∧
  ∀ (s : State) (a b : Word), s.Running a b →
    ∃ t, exec .mul s = .next t ∧
      if a.toNat * b.toNat < 2 ^ 320 then
        s.Completes t 0 (BitVec.ofNat 256 (a.toNat * b.toNat / 2 ^ 64))
      else s.Completes t 2 0

/-- R95, R97: `DIV` gives the floored quotient; `DivisionByZero` is tested before `Overflow`. -/
def Obligations.DivCompletesWithFlooredQuotient : Prop :=
  encode .div = 0x01 ∧
  ∀ (s : State) (a b : Word), s.Running a b →
    ∃ t, exec .div s = .next t ∧
      if b = 0 then s.Completes t 3 0
      else if 2 ^ 192 ≤ a.toNat then s.Completes t 2 0
      else s.Completes t 0 (BitVec.ofNat 256 (a.toNat * 2 ^ 64 / b.toNat))

/-- R110, R111: `LOG2` fails with `DomainError` exactly below `2^64` and otherwise gives the bit
decomposition of R112. -/
def Obligations.Log2CompletesWithBitDecomposition : Prop :=
  encode .log2 = 0x02 ∧
  ∀ (s : State) (a b : Word), s.Running a b →
    ∃ t, exec .log2 s = .next t ∧
      if a.toNat < 2 ^ 64 then s.Completes t 1 0
      else s.Completes t 0 (BitVec.ofNat 256 (refLog2 a.toNat))

/-- R120: `LN` is the whole logarithm to base 2 times `LN2`, one floored multiplication. -/
def Obligations.LnCompletesWithScaledLog2 : Prop :=
  encode .ln = 0x03 ∧
  ∀ (s : State) (a b : Word), s.Running a b →
    ∃ t, exec .ln s = .next t ∧
      if a.toNat < 2 ^ 64 then s.Completes t 1 0
      else s.Completes t 0
        (BitVec.ofNat 256 (refLog2 a.toNat * 0xB17217F7D1CF79AC / 2 ^ 64))

/-- R131, and the semantics of R130: `POW2` fails with `Overflow` exactly from `192·2^64` on and
otherwise gives the fractional product shifted left by the integer part. At the largest operand of the
domain this is the value of R134 and of vector POW2-14, not the one R130 prints (log 19). -/
def Obligations.Pow2CompletesWithShiftedProduct : Prop :=
  encode .pow2 = 0x04 ∧
  ∀ (s : State) (a b : Word), s.Running a b →
    ∃ t, exec .pow2 s = .next t ∧
      if a.toNat < 192 * 2 ^ 64 then s.Completes t 0 (BitVec.ofNat 256 (refPow2 a.toNat))
      else s.Completes t 2 0

/-- R138, R139: `INVPOW2` fails with `DomainError` exactly when the integer part is 41 or more and
otherwise gives the fractional product shifted right by the integer part. -/
def Obligations.InvPow2CompletesWithShiftedProduct : Prop :=
  encode .invPow2 = 0x05 ∧
  ∀ (s : State) (a b : Word), s.Running a b →
    ∃ t, exec .invPow2 s = .next t ∧
      if a.toNat / 2 ^ 64 < 41 then s.Completes t 0 (BitVec.ofNat 256 (refInvPow2 a.toNat))
      else s.Completes t 1 0

/-- R151, R152: `EXP` fails with `Overflow` from `134·2^64` on and, below it, exactly when the product
of the selected factors does not fit 256 bits; otherwise it gives that product. -/
def Obligations.ExpCompletesWithFactorProduct : Prop :=
  encode .exp = 0x06 ∧
  ∀ (s : State) (a b : Word), s.Running a b →
    ∃ t, exec .exp s = .next t ∧
      if a.toNat < 134 * 2 ^ 64 ∧ refExp a.toNat < 2 ^ 256 then
        s.Completes t 0 (BitVec.ofNat 256 (refExp a.toNat))
      else s.Completes t 2 0

/-- R158, R159: `INVEXP` fails with `DomainError` exactly above `2^69`, the bound itself included in
the domain. -/
def Obligations.InvExpCompletesWithFactorProduct : Prop :=
  encode .invExp = 0x07 ∧
  ∀ (s : State) (a b : Word), s.Running a b →
    ∃ t, exec .invExp s = .next t ∧
      if a.toNat ≤ 2 ^ 69 then s.Completes t 0 (BitVec.ofNat 256 (refInvExp a.toNat))
      else s.Completes t 1 0

/-- R174: `POW`, innermost stage first, the first failure ending the command. -/
def Obligations.PowCompletesWithComposition : Prop :=
  encode .pow = 0x08 ∧
  ∀ (s : State) (a p : Word), s.Running a p →
    ∃ t, exec .pow s = .next t ∧
      if a.toNat < 2 ^ 64 then s.Completes t 1 0
      else if 2 ^ 320 ≤ p.toNat * refLog2 a.toNat then s.Completes t 2 0
      else if 192 * 2 ^ 64 ≤ p.toNat * refLog2 a.toNat / 2 ^ 64 then s.Completes t 2 0
      else s.Completes t 0
        (BitVec.ofNat 256 (refPow2 (p.toNat * refLog2 a.toNat / 2 ^ 64)))

/-- R176: `INVPOW`, innermost stage first, the first failure ending the command. -/
def Obligations.InvPowCompletesWithComposition : Prop :=
  encode .invPow = 0x09 ∧
  ∀ (s : State) (a p : Word), s.Running a p →
    ∃ t, exec .invPow s = .next t ∧
      if a.toNat < 2 ^ 64 then s.Completes t 1 0
      else if 2 ^ 320 ≤ p.toNat * refLog2 a.toNat then s.Completes t 2 0
      else if 41 ≤ p.toNat * refLog2 a.toNat / 2 ^ 64 / 2 ^ 64 then s.Completes t 1 0
      else s.Completes t 0
        (BitVec.ofNat 256 (refInvPow2 (p.toNat * refLog2 a.toNat / 2 ^ 64)))

/-- R72: the six one-operand commands do not depend on `OPB`. -/
def Obligations.OneOperandCommandsIgnoreOpb : Prop :=
  ∀ (i : Instr) (a b b' : Word),
    i = .log2 ∨ i = .ln ∨ i = .pow2 ∨ i = .invPow2 ∨ i = .exp ∨ i = .invExp →
    specExec (encode i) a b = specExec (encode i) a b'

/-- R202: `DivisionByZero` is raised only by `DIV`, and then the divisor is 0. -/
def Obligations.DivisionByZeroComesOnlyFromDiv : Prop :=
  ∀ (c : Byte) (a b v : Word), specExec c a b = some (3, v) → c = 0x01 ∧ b = 0

/-! ### Host accesses -/

/-- R171: a write of `CMD` to a channel that is neither busy nor faulted stores the byte and starts a
command; no other channel changes. -/
def Obligations.CommandWriteStartsACommand : Prop :=
  ∀ (s : State) (c : Nat) (ch : Channel) (v : Word) (rest : List Event),
    s.pending = .write (8 * c + 2) v :: rest → s.channels[c]? = some ch →
    ch.status.busy = false → ch.status.fault = false →
    ∃ t ch', step s = .next t ∧ t.channels[c]? = some ch' ∧
      ch'.registers =
        { opa := ch.opa, opb := ch.opb, cmd := v.extractLsb' 0 8, res := 0,
          status := { busy := true, done := false, err := 0, fault := false } } ∧
      (∀ d, d ≠ c → t.channels[d]? = s.channels[d]?) ∧
      t.pending = rest ∧ t.nextGrant = s.nextGrant ∧ t.readData = s.readData

/-- R180: a write of an operand register of a channel that is neither busy nor faulted takes the whole
value and changes nothing else. -/
def Obligations.OperandWritesChangeOneRegister : Prop :=
  ∀ (s : State) (c : Nat) (ch : Channel) (v : Word) (rest : List Event),
    s.channels[c]? = some ch → ch.status.busy = false → ch.status.fault = false →
    (s.pending = .write (8 * c) v :: rest →
      step s = .next { s with pending := rest, channels := s.channels.set c { ch with opa := v } }) ∧
    (s.pending = .write (8 * c + 1) v :: rest →
      step s = .next { s with pending := rest, channels := s.channels.set c { ch with opb := v } })

/-- R184: while busy or faulted every write to every register is ignored and not remembered. -/
def Obligations.WritesWhileBusyOrFaultedAreIgnored : Prop :=
  ∀ (s : State) (c : Nat) (r : BitVec 3) (ch : Channel) (v : Word) (rest : List Event),
    s.pending = .write (8 * c + r.toNat) v :: rest → s.channels[c]? = some ch →
    ch.status.busy = true ∨ ch.status.fault = true →
    step s = .next { s with pending := rest }

/-- R182: a write to `RES`, `STATUS` or a reserved number changes nothing, in every condition. -/
def Obligations.WritesToReadOnlyRegistersAreIgnored : Prop :=
  ∀ (s : State) (c : Nat) (r : BitVec 3) (ch : Channel) (v : Word) (rest : List Event),
    s.pending = .write (8 * c + r.toNat) v :: rest → s.channels[c]? = some ch →
    3 ≤ r.toNat → step s = .next { s with pending := rest }

/-- R183: a read returns the register's value, zero-extended, 0 for a reserved number, in every
condition, and changes no register; `RES` reads 0 while busy. -/
def Obligations.ReadsReturnTheRegister : Prop :=
  ∀ (s : State) (c : Nat) (r : BitVec 3) (ch : Channel) (rest : List Event),
    s.pending = .read (8 * c + r.toNat) :: rest → s.channels[c]? = some ch →
    step s = .next { s with pending := rest, readData :=
      if r = 0 then ch.opa else if r = 1 then ch.opb
      else if r = 2 then BitVec.ofNat 256 ch.cmd.toNat else if r = 3 then ch.res
      else if r = 4 then BitVec.ofNat 256 ch.status.byte.toNat else 0 } ∧
    (r = 3 → s.StatusInv → ch.status.busy = true →
      step s = .next { s with pending := rest, readData := 0 })

/-- R15: the place of every field in the STATUS byte; bits 6:5 are 0. -/
def Obligations.StatusByteHasItsFieldsInPlace : Prop :=
  ∀ st : Status, st.byte.toNat =
    st.busy.toNat + 2 * st.done.toNat + 4 * st.err.toNat + 128 * st.fault.toNat

/-- R186: a WAIT on a running command ends, and it ends with `DONE = 1`: two steps in the model, the
completion and the poll that sees it (log 13). A WAIT on a channel that is already done or faulted ends
at its first poll and changes no register. -/
def Obligations.WaitEndsWithDone : Prop :=
  (∀ (s : State) (c : Nat) (ch : Channel) (rest : List Event),
    s.StatusInv → s.pending = .wait c :: rest → s.channels[c]? = some ch →
    ch.status.busy = true →
    ∃ t ch', runSteps 2 s = .next t ∧ t.pending = rest ∧ t.channels[c]? = some ch' ∧
      ch'.status.done = true ∧ ch'.status.busy = false ∧
      t.readData = BitVec.ofNat 256 ch'.status.byte.toNat) ∧
  ∀ (s : State) (c : Nat) (ch : Channel) (rest : List Event),
    s.pending = .wait c :: rest → s.channels[c]? = some ch →
    ch.status.done = true ∨ ch.status.fault = true →
    step s = .next { s with pending := rest, readData := BitVec.ofNat 256 ch.status.byte.toNat }

/-- R211, R240, R241: the reset input puts every channel, busy or faulted ones too, in the reset state
and completes nothing. -/
def Obligations.ResetInputRestoresEveryChannel : Prop :=
  ∀ (s : State) (rest : List Event), s.pending = .reset :: rest →
    ∃ t, step s = .next t ∧ t.channels.length = s.channels.length ∧ t.pending = rest ∧
      ∀ ch ∈ t.channels, ch.registers =
        { opa := 0, opb := 0, cmd := 0, res := 0,
          status := { busy := false, done := false, err := 0, fault := false } }

/-- A write to a register-space index beyond the last channel stops the model (log 8, the model's
choice: the spec says no such register exists, R61, R223). -/
def Obligations.AccessBeyondTheChannelsStops : Prop :=
  ∀ (s : State) (index : Nat) (v : Word) (rest : List Event),
    8 * s.channels.length ≤ index →
    (s.pending = .write index v :: rest ∨ s.pending = .read index :: rest) →
    step s = .fault .noSuchChannel

/-! ### Invariants -/

/-- R17, R23: the invariants hold in the reset state, for every number of channels. -/
def Obligations.ResetStateMeetsTheInvariants : Prop :=
  ∀ n : Nat, (State.resetOf n).StatusInv ∧ (State.resetOf n).EngineInv ∧
    (State.resetOf n).FaultFree ∧ (State.resetOf n).InputsExist ∧
    (State.resetOf n).channels.length = n ∧
    ∀ ch ∈ (State.resetOf n).channels, ch.registers =
      { opa := 0, opb := 0, cmd := 0, res := 0,
        status := { busy := false, done := false, err := 0, fault := false } }

/-- R17: every step keeps (a) to (f), and they hold at reset, so they hold in every reachable state. -/
def Obligations.EveryStepKeepsTheStatusInvariant : Prop :=
  (∀ n, (State.resetOf n).StatusInv) ∧
  ∀ s t : State, s.StatusInv → step s = .next t → t.StatusInv

/-- R18, R172, R178: every step keeps the hidden engines on the path of their commands, with the ROM
ports in agreement (the grain of the path is the model's, log 6). -/
def Obligations.EveryStepKeepsTheEngineInvariant : Prop :=
  ∀ s t : State, s.EngineInv → step s = .next t → t.EngineInv

/-- R212: no step sets `FAULT`, from any state with the engine invariant and no fault. -/
def Obligations.EveryStepKeepsFaultClear : Prop :=
  ∀ s t : State, s.EngineInv → s.FaultFree → step s = .next t → t.FaultFree

/-- R213: a machine whose pending inputs name existing channels always has a next state, and its
inputs still do: no other condition is fatal. -/
def Obligations.NoOtherFatalConditions : Prop :=
  ∀ s : State, s.InputsExist → ∃ t, step s = .next t ∧ t.InputsExist

/-- R188: an input for one channel leaves every other channel as it is, hidden state included. -/
def Obligations.InputsOfOneChannelLeaveTheOthers : Prop :=
  ∀ (s t : State) (e : Event) (rest : List Event) (c d : Nat),
    s.pending = e :: rest → e.onlyChannel = some c → d ≠ c → step s = .next t →
    t.channels[d]? = s.channels[d]?

/-- R188, R4, R24: what an input does to its channel's registers depends on that channel's registers
alone: two machines, whatever their other channels, hidden state and arbiter, that agree on the
registers of channel `c` agree on them after the same input. -/
def Obligations.AChannelRunsAsIfAlone : Prop :=
  ∀ (s s' t t' : State) (e : Event) (rest rest' : List Event) (c : Nat),
    s.pending = e :: rest → s'.pending = e :: rest' → e.onlyChannel = some c →
    s.registersAt c = s'.registersAt c → step s = .next t → step s' = .next t' →
    t.registersAt c = t'.registersAt c

/-- R184, R241: without a reset, a running command is left as it is or completes with the outcome of
`Exec` on the operands it was started with; nothing else can happen to its channel. -/
def Obligations.ABusyChannelOnlyCompletes : Prop :=
  ∀ (s t : State) (c : Nat) (ch : Channel),
    s.EngineInv → s.channels[c]? = some ch → ch.status.busy = true →
    s.pending.head? ≠ some .reset → step s = .next t →
    t.registersAt c = s.registersAt c ∨
    ∃ e v, specExec ch.cmd ch.opa ch.opb = some (e, v) ∧
      t.registersAt c = some
        { opa := ch.opa, opb := ch.opb, cmd := ch.cmd, res := v,
          status := { busy := false, done := true, err := e, fault := ch.status.fault } }

/-- R185: after a completion `RES`, `ERR` and `DONE` change only at the next command start or at
reset. -/
def Obligations.AResultPersistsUntilTheNextStart : Prop :=
  ∀ (s t : State) (c : Nat) (ch : Channel),
    s.EngineInv → s.channels[c]? = some ch → ch.status.busy = false → ch.status.done = true →
    s.pending.head? ≠ some .reset → (∀ v, s.pending.head? ≠ some (.write (8 * c + 2) v)) →
    step s = .next t →
    ∃ ch', t.channels[c]? = some ch' ∧ ch'.res = ch.res ∧ ch'.status = ch.status

/-- R212, R241: only a reset changes the registers of a faulted channel. -/
def Obligations.AFaultedChannelWaitsForReset : Prop :=
  ∀ (s t : State) (c : Nat) (ch : Channel),
    s.EngineInv → s.channels[c]? = some ch → ch.status.fault = true → ch.status.busy = false →
    s.pending.head? ≠ some .reset → step s = .next t →
    t.registersAt c = s.registersAt c

/-- R170: a channel is in exactly one of the four conditions, and without a reset its condition
changes only from idle or done to busy and from busy to done. -/
def Obligations.ConditionsChangeOnlyAsNamed : Prop :=
  ∀ s : State, s.StatusInv →
    (∀ ch ∈ s.channels, ch.status.isIdle.toNat + ch.status.busy.toNat + ch.status.isDone.toNat +
      ch.status.fault.toNat = 1) ∧
    ∀ (t : State) (c : Nat) (ch ch' : Channel),
      s.EngineInv → s.pending.head? ≠ some .reset → step s = .next t →
      s.channels[c]? = some ch → t.channels[c]? = some ch' →
      (ch.status.isIdle = true → ch'.status.isIdle = true ∨ ch'.status.busy = true) ∧
      (ch.status.busy = true → ch'.status.busy = true ∨ ch'.status.isDone = true) ∧
      (ch.status.isDone = true → ch'.status.isDone = true ∨ ch'.status.busy = true) ∧
      (ch.status.fault = true → ch'.status.fault = true)

/-- R262: a command may not stay busy for ever: from every state, after twice as many steps as there
are inputs and one for each channel, no channel is busy. -/
def Obligations.NoChannelStaysBusyForEver : Prop :=
  ∀ (s t : State) (k : Nat), 2 * s.pending.length + s.channels.length ≤ k →
    runSteps k s = .next t → ∀ ch ∈ t.channels, ch.status.busy = false

/-! ### The hidden engines and the arbiter -/

/-- R112, R134, R140, R152, R160, R172: the iterations, on the registers of R18 and with the 512-bit
product of R92, end within 43 of them with the outcome of `Exec`. -/
def Obligations.TheIterationsComputeExec : Prop :=
  ∀ (i : Instr) (a b : Word) (h : Hidden),
    ∃ e, (runEngine i a b 43 h.atStart).phase = .finished e ∧
      specExec (encode i) a b = some (e, (runEngine i a b 43 h.atStart).acc)

/-- R172: an engine that has finished holds exactly what the completion will report. -/
def Obligations.AFinishedEngineHoldsTheOutcome : Prop :=
  ∀ (s : State) (ch : Channel) (e : BitVec 3),
    s.EngineInv → ch ∈ s.channels → ch.status.busy = true → ch.hidden.phase = .finished e →
    specExec ch.cmd ch.opa ch.opb = some (e, ch.hidden.acc)

/-- R52, R154, R162: every request a running command places is for a word its command reads, and that
word is defined. -/
def Obligations.RequestsStayInTheTablesOfTheCommand : Prop :=
  ∀ (s : State) (ch : Channel) (p : Port) (addr : BitVec 8),
    s.EngineInv → ch ∈ s.channels → ch.romPort = .waiting p addr →
    ∃ i tn w, decode ch.cmd = .ok i ∧ tn ∈ readsOf i ∧ addr.extractLsb' 5 3 = tn.1 ∧
      (addr.extractLsb' 0 5).toNat < tn.2 ∧ memRead addr = .ok w

/-- R54, R55: a grant serves the first requesting channel in round-robin order, from the arbiter's
position on and wrapping at `NCH`: that channel gets the word at its address, and the position moves
past it; no register and no other channel changes. With no channel requesting nothing happens. The form
of the position is the model's (log 7). -/
def Obligations.AGrantDeliversTheWord : Prop :=
  (∀ (s : State) (d : Nat), d < s.channels.length →
    s.requestingAt ((s.nextGrant + d) % s.channels.length) = true →
    (∀ e, e < d → s.requestingAt ((s.nextGrant + e) % s.channels.length) = false) →
    s.grantee = some ((s.nextGrant + d) % s.channels.length)) ∧
  (∀ (s : State) (rest : List Event) (c : Nat) (ch : Channel) (p : Port) (addr : BitVec 8)
      (w : Word),
    s.pending = .grant :: rest → s.grantee = some c → s.channels[c]? = some ch →
    ch.romPort = .waiting p addr → memRead addr = .ok w →
    ∃ t, step s = .next t ∧ t.channels = s.channels.set c { ch with romPort := .ready w } ∧
      t.nextGrant = (c + 1) % s.channels.length ∧ t.pending = rest) ∧
  ∀ (s : State) (rest : List Event),
    s.pending = .grant :: rest → (∀ c, s.requestingAt c = false) →
    step s = .next { s with pending := rest }

/-- R42, R212: a grant of a request outside the tables faults the requesting channel: STATUS reads
0x80 and RES reads 0. -/
def Obligations.AReadOutsideTheTablesFaults : Prop :=
  ∀ (s : State) (rest : List Event) (c : Nat) (ch : Channel) (p : Port) (addr : BitVec 8),
    s.pending = .grant :: rest → s.grantee = some c → s.channels[c]? = some ch →
    ch.romPort = .waiting p addr → (∀ w, memRead addr ≠ .ok w) →
    ∃ t ch', step s = .next t ∧ t.channels[c]? = some ch' ∧
      ch'.registers =
        { opa := ch.opa, opb := ch.opb, cmd := ch.cmd, res := 0,
          status := { busy := false, done := false, err := 0, fault := true } } ∧
      ch'.status.byte = 0x80 ∧ ∀ d, d ≠ c → t.channels[d]? = s.channels[d]?

/-- R55, step by step: while channel `c` is requesting, a grant serves `c`, or serves another channel,
leaves `c` requesting and brings it strictly nearer in the round-robin order; at distance 0 it serves
`c`; and no input but a grant or the reset moves the arbiter's position (its form is the model's,
log 7). -/
def Obligations.EveryRequestIsGrantedInTurn : Prop :=
  (∀ (s : State) (c : Nat) (rest : List Event),
    s.requestingAt c = true → s.pending = .grant :: rest →
    s.grantDistance c < s.channels.length ∧
    ∃ d t, s.grantee = some d ∧ step s = .next t ∧
      (d = c → t.requestingAt c = false) ∧
      (d ≠ c → t.requestingAt c = true ∧ t.grantDistance c < s.grantDistance c) ∧
      (s.grantDistance c = 0 → d = c)) ∧
  ∀ s t : State, step s = .next t →
    s.pending.head? ≠ some .grant → s.pending.head? ≠ some .reset → t.nextGrant = s.nextGrant

/-- R55, along a run: while channel `c` stays requesting, at most `NCH - 1` grants happen, all to other
channels, whatever the inputs between them and whatever the other channels request anew. With one
channel there is none. -/
def Obligations.AWaitingRequestIsPassedOverFewTimes : Prop :=
  ∀ (path : Nat → State) (k c : Nat),
    (∀ j, j < k → step (path j) = .next (path (j + 1))) →
    (∀ j, j ≤ k → (path j).requestingAt c = true) →
    (List.range k).countP (fun j => (path j).pending.head? == some .grant) ≤
      (path 0).channels.length - 1

/-- R56, R172: neither a hidden iteration nor a grant changes a register of any channel. -/
def Obligations.HiddenWorkIsInvisible : Prop :=
  ∀ (s t : State) (rest : List Event) (c d : Nat),
    s.EngineInv → s.pending = .grant :: rest ∨ s.pending = .advance c :: rest →
    step s = .next t → t.registersAt d = s.registersAt d

/-! ### The ROM -/

/-- R42, R43: the addresses that hold a word, table by table. That table 2 holds a word at index 8
(address 0x48) is the model's choice (log 11, DESIGN CHOICE): R46 leaves its value free and lets a model
give the table 8 entries. -/
def Obligations.TheRomMapIsTheTables : Prop :=
  ∀ (t : Table) (i : BitVec 5),
    (∃ w, memRead (t ++ i) = .ok w) ↔ i.toNat < [20, 20, 9, 20, 8, 20, 1, 0].getD t.toNat 0

/-- R53: the facts about the content that the command rules rely on, (a) to (g). -/
def Obligations.TheRomContentHasItsFacts : Prop :=
  let w : List Word → Nat → Nat := fun l i => (l.getD i 0).toNat
  (∀ i < 20, 2 ^ 64 < w log2T i ∧ w log2T i < 2 ^ 65 ∧
    (i < 19 → w log2T (i + 1) < w log2T i)) ∧
  (∀ i < 20, 2 ^ 63 < w invLog2T i ∧ w invLog2T i < 2 ^ 64 ∧
    (i < 19 → w invLog2T i < w invLog2T (i + 1))) ∧
  (∀ i < 20, 2 ^ 64 < w expNegT i ∧ w expNegT i < 2 ^ 65 ∧
    (i < 19 → w expNegT (i + 1) < w expNegT i)) ∧
  (∀ i < 20, 2 ^ 63 < w invExpNegT i ∧ w invExpNegT i < 2 ^ 64 ∧
    (i < 19 → w invExpNegT i < w invExpNegT (i + 1))) ∧
  fracLoop tblLog2 (BitVec.allOnes 64) 20 0 oneQ = .ok 0x1FFFFE9D1BD7C04B1 ∧
  fracLoop tblExpNeg (BitVec.allOnes 64) 20 0 oneQ = .ok 0x2B7E125E47732F252 ∧
  mulQ (log2T.getD 0 0) (log2T.getD 0 0) = .ok (BitVec.ofNat 256 (2 ^ 65)) ∧
  w expPosT 7 < 2 ^ 249

/-! ### Laws of the arithmetic and the engines -/

/-- R93: the laws (a) to (g) of `mulQ`. -/
def Obligations.MultiplyObeysItsLaws : Prop :=
  (∀ a b, mulQ a b = mulQ b a) ∧
  (∀ a, mulQ a 0 = .ok 0) ∧
  (∀ a, mulQ a (BitVec.ofNat 256 (2 ^ 64)) = .ok a) ∧
  (∀ a k, k ≤ 191 → a.toNat * 2 ^ k < 2 ^ 256 →
    mulQ a (BitVec.ofNat 256 (2 ^ (64 + k))) = .ok (a <<< k)) ∧
  (∀ a a' b v v', a.toNat ≤ a'.toNat → mulQ a b = .ok v → mulQ a' b = .ok v' →
    v.toNat ≤ v'.toNat) ∧
  (∀ a a' b, a.toNat ≤ a'.toNat → mulQ a b = .error (.failure .overflow) →
    mulQ a' b = .error (.failure .overflow)) ∧
  (∀ a b v, mulQ a b = .ok v → v.toNat * 2 ^ 64 ≤ a.toNat * b.toNat ∧
    a.toNat * b.toNat < v.toNat * 2 ^ 64 + 2 ^ 64) ∧
  (∃ a b c x y u v, mulQ a b = .ok x ∧ mulQ x c = .ok u ∧ mulQ b c = .ok y ∧ mulQ a y = .ok v ∧
    u ≠ v)

/-- R99: the laws (a) to (g) of `divQ` on its domain. -/
def Obligations.DivideObeysItsLaws : Prop :=
  ∀ a b : Word, b ≠ 0 → a.toNat < 2 ^ 192 →
    divQ 0 b = .ok 0 ∧
    divQ a (BitVec.ofNat 256 (2 ^ 64)) = .ok a ∧
    (a ≠ 0 → divQ a a = .ok (BitVec.ofNat 256 (2 ^ 64))) ∧
    (∀ k, k ≤ 191 → divQ a (BitVec.ofNat 256 (2 ^ (64 + k))) = .ok (a >>> k)) ∧
    (∀ a' v v', a.toNat ≤ a'.toNat → divQ a b = .ok v → divQ a' b = .ok v' →
      v.toNat ≤ v'.toNat) ∧
    (∀ b' v v', b.toNat ≤ b'.toNat → divQ a b = .ok v → divQ a b' = .ok v' →
      v'.toNat ≤ v.toNat) ∧
    ∃ v, divQ a b = .ok v ∧ v.toNat * b.toNat ≤ a.toNat * 2 ^ 64 ∧
      a.toNat * 2 ^ 64 < v.toNat * b.toNat + b.toNat ∧ (v = 0 ↔ a.toNat * 2 ^ 64 < b.toNat)

/-- R100: what multiply-then-divide gives: (a) never above `a`, (b) the bound on the loss, at most 1
from a multiplier of 1.0 on, (c) exact when no bits were discarded; and the counterexample to
exactness. -/
def Obligations.MultiplyThenDivideLosesLittle : Prop :=
  (∀ a b m : Word, b ≠ 0 → mulQ a b = .ok m → m.toNat < 2 ^ 192 →
    ∃ d, divQ m b = .ok d ∧ d.toNat ≤ a.toNat ∧
      a.toNat - d.toNat ≤ (2 ^ 64 - 1 + b.toNat - 1) / b.toNat ∧
      (2 ^ 64 ≤ b.toNat → a.toNat - d.toNat ≤ 1) ∧
      (2 ^ 64 ∣ a.toNat * b.toNat → d = a)) ∧
  mulQ 1 1 = .ok 0 ∧ divQ 0 1 = .ok 0

/-- R92: the overflow test of `mulQ` is exactly bits 511:320 of the full 512-bit product, and its
result is bits 319:64. -/
def Obligations.MultiplyUsesTheFullProduct : Prop :=
  ∀ a b : Word,
    let p : BitVec 512 := a.setWidth 512 * b.setWidth 512
    mulQ a b =
      if p.extractLsb' 320 192 = 0 then .ok (p.extractLsb' 64 256)
      else .error (.failure .overflow)

/-- R116: the shape of a logarithm: (a) 20 fractional bits, (b) integer part `msb(a) - 64`, at most
191, (c) monotone. -/
def Obligations.LogarithmHasItsShape : Prop :=
  (∀ a v : Word, log2Q a = .ok v →
    v.extractLsb' 0 44 = 0 ∧ v.toNat / 2 ^ 64 = Nat.log2 a.toNat - 64 ∧
    v.toNat / 2 ^ 64 ≤ 191 ∧ v.toNat < 192 * 2 ^ 64) ∧
  (∀ a a' v v' : Word, a.toNat ≤ a'.toNat → log2Q a = .ok v → log2Q a' = .ok v' →
    v.toNat ≤ v'.toNat)

/-- R117: exact cases of the logarithm. -/
def Obligations.LogarithmIsExactOnPowersOfTwo : Prop :=
  (∀ j, j ≤ 191 →
    log2Q (BitVec.ofNat 256 (2 ^ (64 + j))) = .ok (BitVec.ofNat 256 (j * 2 ^ 64))) ∧
  (∀ a : Word, 2 ^ 64 ≤ a.toNat →
    a.toNat / 2 ^ (Nat.log2 a.toNat - 64) < 0x100000B1721BCFC9A →
    log2Q a = .ok (BitVec.ofNat 256 ((Nat.log2 a.toNat - 64) * 2 ^ 64)))

/-- R135: no multiplication in `pow2Q` overflows and the last one is an exact left shift. -/
def Obligations.Pow2NeverOverflowsInside : Prop :=
  ∀ f : BitVec 64, ∃ r, fracLoop tblLog2 f 20 0 oneQ = .ok r ∧
    2 ^ 64 ≤ r.toNat ∧ r.toNat ≤ 0x1FFFFE9D1BD7C04B1 ∧
    ∀ k, k ≤ 191 → mulQ (BitVec.ofNat 256 (2 ^ (64 + k))) r = .ok (r <<< k) ∧
      (r <<< k).toNat = r.toNat * 2 ^ k

/-- R141: no multiplication in `invPow2Q` overflows; the bounds of the fractional product and of the
result. -/
def Obligations.InvPow2StaysInItsBounds : Prop :=
  (∀ f : BitVec 64, ∃ r, fracLoop tblInvLog2 f 20 0 oneQ = .ok r ∧
    0x8000058B90DE7E43 ≤ r.toNat ∧ r.toNat ≤ 2 ^ 64) ∧
  fracLoop tblInvLog2 (BitVec.allOnes 64) 20 0 oneQ = .ok 0x8000058B90DE7E43 ∧
  (∀ x : Word, x.toNat / 2 ^ 64 < 41 → ∃ v, invPow2Q x = .ok v ∧
    2 ^ 23 ≤ v.toNat ∧ v.toNat ≤ 2 ^ 64) ∧
  (∀ x : Word, 41 ≤ x.toNat / 2 ^ 64 → invPow2Q x = .error (.failure .domainError))

/-- R153: the exact boundary of `EXP`: it succeeds if and only if the operand is at most
`0x851591FFFFFFFFFFFF`, and its other failures are `Overflow`. -/
def Obligations.ExpSucceedsExactlyUpToItsBoundary : Prop :=
  ∀ a : Word,
    (a.toNat ≤ 0x851591FFFFFFFFFFFF → ∃ v, expQ a = .ok v ∧ 2 ^ 64 ≤ v.toNat) ∧
    (0x851591FFFFFFFFFFFF < a.toNat → expQ a = .error (.failure .overflow))

/-- R161: no multiplication in `invExpQ` overflows; its smallest result, at `2^69 - 1`; the only
failure is the domain test. -/
def Obligations.InvExpStaysInItsBounds : Prop :=
  (∀ a : Word, a.toNat ≤ 2 ^ 69 → ∃ v, invExpQ a = .ok v ∧
    0x3908C ≤ v.toNat ∧ v.toNat ≤ 2 ^ 64) ∧
  invExpQ (BitVec.ofNat 256 (2 ^ 69 - 1)) = .ok 0x3908C ∧
  (∀ a : Word, 2 ^ 69 < a.toNat → invExpQ a = .error (.failure .domainError))
end

