-- ==== Sys2Proof/Laws/State.lean ====
section
/-! SUPPORT. One lemma per field per update of the state's records, each true by `rfl`, so that no proof
unfolds an update. -/

namespace Sys2Proof.Machine

@[simp] theorem State.setChannel_channels (s : State) (c : Nat) (ch : Channel) :
    (s.setChannel c ch).channels = s.channels.set c ch := rfl
@[simp] theorem State.setChannel_nextGrant (s : State) (c : Nat) (ch : Channel) :
    (s.setChannel c ch).nextGrant = s.nextGrant := rfl
@[simp] theorem State.setChannel_active (s : State) (c : Nat) (ch : Channel) :
    (s.setChannel c ch).active = s.active := rfl
@[simp] theorem State.setChannel_pending (s : State) (c : Nat) (ch : Channel) :
    (s.setChannel c ch).pending = s.pending := rfl
@[simp] theorem State.setChannel_readData (s : State) (c : Nat) (ch : Channel) :
    (s.setChannel c ch).readData = s.readData := rfl
@[simp] theorem State.setChannel_freeIndex (s : State) (c : Nat) (ch : Channel) :
    (s.setChannel c ch).freeIndex = s.freeIndex := rfl

@[simp] theorem State.resetInput_channels (s : State) :
    (s.resetInput).channels = s.channels.map fun _ => Channel.reset := rfl
@[simp] theorem State.resetInput_nextGrant (s : State) :
    (s.resetInput).nextGrant = 0 := rfl
@[simp] theorem State.resetInput_active (s : State) :
    (s.resetInput).active = s.active := rfl
@[simp] theorem State.resetInput_pending (s : State) :
    (s.resetInput).pending = s.pending := rfl
@[simp] theorem State.resetInput_readData (s : State) :
    (s.resetInput).readData = s.readData := rfl
@[simp] theorem State.resetInput_freeIndex (s : State) :
    (s.resetInput).freeIndex = s.freeIndex := rfl

@[simp] theorem State.poll_channels (s : State) (ch : Channel) :
    (s.poll ch).channels = s.channels := rfl
@[simp] theorem State.poll_nextGrant (s : State) (ch : Channel) :
    (s.poll ch).nextGrant = s.nextGrant := rfl
@[simp] theorem State.poll_active (s : State) (ch : Channel) :
    (s.poll ch).active = s.active := rfl
@[simp] theorem State.poll_pending (s : State) (ch : Channel) :
    (s.poll ch).pending = s.pending := rfl
@[simp] theorem State.poll_readData (s : State) (ch : Channel) :
    (s.poll ch).readData = ch.readReg regSTATUS := rfl
@[simp] theorem State.poll_freeIndex (s : State) (ch : Channel) :
    (s.poll ch).freeIndex = s.freeIndex := rfl

@[simp] theorem Channel.startCommand_opa (ch : Channel) (c : Byte) :
    (ch.startCommand c).opa = ch.opa := rfl
@[simp] theorem Channel.startCommand_opb (ch : Channel) (c : Byte) :
    (ch.startCommand c).opb = ch.opb := rfl
@[simp] theorem Channel.startCommand_cmd (ch : Channel) (c : Byte) :
    (ch.startCommand c).cmd = c := rfl
@[simp] theorem Channel.startCommand_res (ch : Channel) (c : Byte) :
    (ch.startCommand c).res = 0 := rfl
@[simp] theorem Channel.startCommand_status (ch : Channel) (c : Byte) :
    (ch.startCommand c).status = ch.status.started := rfl
@[simp] theorem Channel.startCommand_hidden (ch : Channel) (c : Byte) :
    (ch.startCommand c).hidden = { ch.hidden with phase := .start } := rfl
@[simp] theorem Channel.startCommand_romPort (ch : Channel) (c : Byte) :
    (ch.startCommand c).romPort = .quiet := rfl

@[simp] theorem Channel.succeed_opa (ch : Channel) (v : Word) (h : Hidden) :
    (ch.succeed v h).opa = ch.opa := rfl
@[simp] theorem Channel.succeed_opb (ch : Channel) (v : Word) (h : Hidden) :
    (ch.succeed v h).opb = ch.opb := rfl
@[simp] theorem Channel.succeed_cmd (ch : Channel) (v : Word) (h : Hidden) :
    (ch.succeed v h).cmd = ch.cmd := rfl
@[simp] theorem Channel.succeed_res (ch : Channel) (v : Word) (h : Hidden) :
    (ch.succeed v h).res = v := rfl
@[simp] theorem Channel.succeed_status (ch : Channel) (v : Word) (h : Hidden) :
    (ch.succeed v h).status = ch.status.completed 0 := rfl
@[simp] theorem Channel.succeed_hidden (ch : Channel) (v : Word) (h : Hidden) :
    (ch.succeed v h).hidden = h := rfl
@[simp] theorem Channel.succeed_romPort (ch : Channel) (v : Word) (h : Hidden) :
    (ch.succeed v h).romPort = .quiet := rfl

@[simp] theorem Channel.takeFailure_opa (ch : Channel) (f : Failure) (h : Hidden) :
    (ch.takeFailure f h).opa = ch.opa := rfl
@[simp] theorem Channel.takeFailure_opb (ch : Channel) (f : Failure) (h : Hidden) :
    (ch.takeFailure f h).opb = ch.opb := rfl
@[simp] theorem Channel.takeFailure_cmd (ch : Channel) (f : Failure) (h : Hidden) :
    (ch.takeFailure f h).cmd = ch.cmd := rfl
@[simp] theorem Channel.takeFailure_res (ch : Channel) (f : Failure) (h : Hidden) :
    (ch.takeFailure f h).res = 0 := rfl
@[simp] theorem Channel.takeFailure_status (ch : Channel) (f : Failure) (h : Hidden) :
    (ch.takeFailure f h).status = ch.status.completed f.code := rfl
@[simp] theorem Channel.takeFailure_hidden (ch : Channel) (f : Failure) (h : Hidden) :
    (ch.takeFailure f h).hidden = h := rfl
@[simp] theorem Channel.takeFailure_romPort (ch : Channel) (f : Failure) (h : Hidden) :
    (ch.takeFailure f h).romPort = .quiet := rfl

@[simp] theorem Channel.takeFault_opa (ch : Channel) (h : Hidden) :
    (ch.takeFault h).opa = ch.opa := rfl
@[simp] theorem Channel.takeFault_opb (ch : Channel) (h : Hidden) :
    (ch.takeFault h).opb = ch.opb := rfl
@[simp] theorem Channel.takeFault_cmd (ch : Channel) (h : Hidden) :
    (ch.takeFault h).cmd = ch.cmd := rfl
@[simp] theorem Channel.takeFault_res (ch : Channel) (h : Hidden) :
    (ch.takeFault h).res = 0 := rfl
@[simp] theorem Channel.takeFault_status (ch : Channel) (h : Hidden) :
    (ch.takeFault h).status = ch.status.faulted := rfl
@[simp] theorem Channel.takeFault_hidden (ch : Channel) (h : Hidden) :
    (ch.takeFault h).hidden = h := rfl
@[simp] theorem Channel.takeFault_romPort (ch : Channel) (h : Hidden) :
    (ch.takeFault h).romPort = .quiet := rfl

@[simp] theorem Status.started_busy (st : Status) :
    (st.started).busy = true := rfl
@[simp] theorem Status.started_done (st : Status) :
    (st.started).done = false := rfl
@[simp] theorem Status.started_err (st : Status) :
    (st.started).err = 0 := rfl
@[simp] theorem Status.started_fault (st : Status) :
    (st.started).fault = st.fault := rfl

@[simp] theorem Status.completed_busy (st : Status) (e : BitVec 3) :
    (st.completed e).busy = false := rfl
@[simp] theorem Status.completed_done (st : Status) (e : BitVec 3) :
    (st.completed e).done = true := rfl
@[simp] theorem Status.completed_err (st : Status) (e : BitVec 3) :
    (st.completed e).err = e := rfl
@[simp] theorem Status.completed_fault (st : Status) (e : BitVec 3) :
    (st.completed e).fault = st.fault := rfl

@[simp] theorem Status.faulted_busy (st : Status) :
    (st.faulted).busy = false := rfl
@[simp] theorem Status.faulted_done (st : Status) :
    (st.faulted).done = false := rfl
@[simp] theorem Status.faulted_err (st : Status) :
    (st.faulted).err = 0 := rfl
@[simp] theorem Status.faulted_fault (st : Status) :
    (st.faulted).fault = true := rfl

@[simp] theorem Hidden.finish_acc (h : Hidden) (v : Word) :
    (h.finish v).acc = v := rfl
@[simp] theorem Hidden.finish_idx (h : Hidden) (v : Word) :
    (h.finish v).idx = h.idx := rfl
@[simp] theorem Hidden.finish_k (h : Hidden) (v : Word) :
    (h.finish v).k = h.k := rfl
@[simp] theorem Hidden.finish_frac (h : Hidden) (v : Word) :
    (h.finish v).frac = h.frac := rfl
@[simp] theorem Hidden.finish_prod (h : Hidden) (v : Word) :
    (h.finish v).prod = h.prod := rfl
@[simp] theorem Hidden.finish_phase (h : Hidden) (v : Word) :
    (h.finish v).phase = .finished 0 := rfl

@[simp] theorem Hidden.fail_acc (h : Hidden) (f : Failure) :
    (h.fail f).acc = 0 := rfl
@[simp] theorem Hidden.fail_idx (h : Hidden) (f : Failure) :
    (h.fail f).idx = h.idx := rfl
@[simp] theorem Hidden.fail_k (h : Hidden) (f : Failure) :
    (h.fail f).k = h.k := rfl
@[simp] theorem Hidden.fail_frac (h : Hidden) (f : Failure) :
    (h.fail f).frac = h.frac := rfl
@[simp] theorem Hidden.fail_prod (h : Hidden) (f : Failure) :
    (h.fail f).prod = h.prod := rfl
@[simp] theorem Hidden.fail_phase (h : Hidden) (f : Failure) :
    (h.fail f).phase = .finished f.code := rfl

@[simp] theorem Hidden.multiply_acc (h : Hidden) (a b : Word) :
    (h.multiply a b).acc = h.acc := rfl
@[simp] theorem Hidden.multiply_idx (h : Hidden) (a b : Word) :
    (h.multiply a b).idx = h.idx := rfl
@[simp] theorem Hidden.multiply_k (h : Hidden) (a b : Word) :
    (h.multiply a b).k = h.k := rfl
@[simp] theorem Hidden.multiply_frac (h : Hidden) (a b : Word) :
    (h.multiply a b).frac = h.frac := rfl
@[simp] theorem Hidden.multiply_prod (h : Hidden) (a b : Word) :
    (h.multiply a b).prod = a.setWidth 512 * b.setWidth 512 := rfl
@[simp] theorem Hidden.multiply_phase (h : Hidden) (a b : Word) :
    (h.multiply a b).phase = h.phase := rfl

@[simp] theorem Hidden.atStart_acc (h : Hidden) :
    (h.atStart).acc = h.acc := rfl
@[simp] theorem Hidden.atStart_idx (h : Hidden) :
    (h.atStart).idx = h.idx := rfl
@[simp] theorem Hidden.atStart_k (h : Hidden) :
    (h.atStart).k = h.k := rfl
@[simp] theorem Hidden.atStart_frac (h : Hidden) :
    (h.atStart).frac = h.frac := rfl
@[simp] theorem Hidden.atStart_prod (h : Hidden) :
    (h.atStart).prod = h.prod := rfl
@[simp] theorem Hidden.atStart_phase (h : Hidden) :
    (h.atStart).phase = .start := rfl

@[simp] theorem Channel.registers_opa (ch : Channel) :
    (ch.registers).opa = ch.opa := rfl
@[simp] theorem Channel.registers_opb (ch : Channel) :
    (ch.registers).opb = ch.opb := rfl
@[simp] theorem Channel.registers_cmd (ch : Channel) :
    (ch.registers).cmd = ch.cmd := rfl
@[simp] theorem Channel.registers_res (ch : Channel) :
    (ch.registers).res = ch.res := rfl
@[simp] theorem Channel.registers_status (ch : Channel) :
    (ch.registers).status = ch.status := rfl

@[simp] theorem State.resetOf_pending (n : Nat) : (State.resetOf n).pending = [] := rfl
@[simp] theorem State.resetOf_channels (n : Nat) :
    (State.resetOf n).channels = List.replicate n Channel.reset := rfl

end Sys2Proof.Machine
end

