-- ==== Sys2Proof/Laws/Ops.lean ====
section
/-! SUPPORT. One lemma for each shared operation, saying all that it can do; proofs cite these instead
of unfolding the operation. -/

namespace Sys2Proof.Machine

/-! ### Settling and completing -/

@[simp] theorem Channel.settle_ok (ch : Channel) (v : Word) (h : Hidden) :
    ch.settle (.ok v) h = ch.succeed v h := rfl

@[simp] theorem Channel.settle_failure (ch : Channel) (f : Failure) (h : Hidden) :
    ch.settle (.error (.failure f)) h = ch.takeFailure f h := rfl

@[simp] theorem Channel.settle_tableBound (ch : Channel) (h : Hidden) :
    ch.settle (.error .tableBound) h = ch.takeFault h := rfl

/-- Settling leaves the operands and the command byte. -/
theorem Channel.settle_keeps (ch : Channel) (r : Except Abort Word) (h : Hidden) :
    (ch.settle r h).opa = ch.opa ∧ (ch.settle r h).opb = ch.opb ∧ (ch.settle r h).cmd = ch.cmd ∧
    (ch.settle r h).romPort = .quiet ∧ (ch.settle r h).status.busy = false := by
  rcases r with (f | _) | v <;> simp

/-- A completion on a busy active channel. -/
theorem State.complete_of_busy {s : State} {ch : Channel} (f : Word → Word → Except Abort Word)
    (hc : s.channels[s.active]? = some ch) (hb : ch.status.busy = true) :
    s.complete f = .next { s.setChannel s.active (ch.settle (f ch.opa ch.opb) s.freshHidden) with
      freeIndex := s.freeIndex + 1 } := by
  simp [State.complete, hc, hb]

/-- A completion on an active channel that is not busy. -/
theorem State.complete_of_not_busy {s : State} {ch : Channel}
    (f : Word → Word → Except Abort Word)
    (hc : s.channels[s.active]? = some ch) (hb : ch.status.busy = false) :
    s.complete f = .next s := by
  simp [State.complete, hc, hb]

/-- All that a completion that answers a next state can have done. -/
theorem State.complete_next {s t : State} {f : Word → Word → Except Abort Word}
    (h : s.complete f = .next t) :
    ∃ ch, s.channels[s.active]? = some ch ∧
      ((ch.status.busy = false ∧ t = s) ∨
       (ch.status.busy = true ∧
        t = { s.setChannel s.active (ch.settle (f ch.opa ch.opb) s.freshHidden) with
              freeIndex := s.freeIndex + 1 })) := by
  rcases hc : s.channels[s.active]? with _ | ch
  · simp [State.complete, hc] at h
  · rcases hb : ch.status.busy with _ | _
    · rw [s.complete_of_not_busy f hc hb] at h
      exact ⟨ch, rfl, .inl ⟨hb, by injection h with h; exact h.symm⟩⟩
    · rw [s.complete_of_busy f hc hb] at h
      exact ⟨ch, rfl, .inr ⟨hb, by injection h with h; exact h.symm⟩⟩

/-- Every command is the shared completion of its evaluation. -/
theorem exec_eq_complete (i : Instr) (s : State) :
    exec i s = s.complete (commandValue i) := by
  cases i <;> rfl

/-- The step of a started byte is the shared completion of its evaluation. -/
theorem State.runByte_eq_complete (s : State) (c : Byte) :
    s.runByte c = s.complete (byteValue c) := by
  rcases h : decode c with e | i
  · have hv : byteValue c = fun _ _ => .error (.failure .illegalCommand) := by
      funext a b; simp only [byteValue, h]
    simp only [State.runByte, h, hv, State.completeIllegal]
  · have hv : byteValue c = commandValue i := by funext a b; simp only [byteValue, h]
    simp only [State.runByte, h, hv, exec_eq_complete]

/-! ### The sequencer, host accesses, iterations and grants -/

/-- All that the sequencer's turn on a channel can have done. -/
theorem State.runChannel_next {s t : State} {c : Nat} (h : s.runChannel c = .next t) :
    ∃ ch, s.channels[c]? = some ch ∧
      ((ch.status.busy = false ∧ t = s) ∨
       (ch.status.busy = true ∧
        t = { s.setChannel c (ch.settle (byteValue ch.cmd ch.opa ch.opb) s.freshHidden) with
              active := c, freeIndex := s.freeIndex + 1 })) := by
  rcases hc : s.channels[c]? with _ | ch
  · simp [State.runChannel, hc] at h
  · rcases hb : ch.status.busy with _ | _
    · simp only [State.runChannel, hc, hb, Bool.false_eq_true, if_false] at h
      exact ⟨ch, rfl, .inl ⟨hb, by injection h with h; exact h.symm⟩⟩
    · simp only [State.runChannel, hc, hb, if_true] at h
      rw [State.runByte_eq_complete, State.complete_of_busy (ch := ch) _ hc hb] at h
      exact ⟨ch, rfl, .inr ⟨hb, by injection h with h; exact h.symm⟩⟩

/-- A write to a channel that is busy or faulted leaves it. -/
theorem Channel.writeReg_ignored {ch : Channel} (r : BitVec 3) (v : Word)
    (h : ch.status.busy = true ∨ ch.status.fault = true) : ch.writeReg r v = ch := by
  rcases h with h | h <;> simp [Channel.writeReg, Status.accepts, h]

/-- All that a host write can have done. -/
theorem State.hostWrite_next {s t : State} {index : Nat} {v : Word}
    (h : s.hostWrite index v = .next t) :
    ∃ ch, s.channels[indexChannel index]? = some ch ∧
      t = s.setChannel (indexChannel index) (ch.writeReg (indexReg index) v) := by
  unfold State.hostWrite at h
  split at h
  · cases h
  · rename_i ch hc
    exact ⟨ch, hc, by injection h with h; exact h.symm⟩

/-- All that a host read can have done. -/
theorem State.hostRead_next {s t : State} {index : Nat} (h : s.hostRead index = .next t) :
    ∃ ch, s.channels[indexChannel index]? = some ch ∧
      t = { s with readData := ch.readReg (indexReg index) } := by
  unfold State.hostRead at h
  split at h
  · cases h
  · rename_i ch hc
    exact ⟨ch, hc, by injection h with h; exact h.symm⟩

/-- All that a hidden iteration can have done. -/
theorem State.advance_next {s t : State} {c : Nat} (h : s.advance c = .next t) :
    ∃ ch, s.channels[c]? = some ch ∧
      ((ch.status.busy = false ∧ t = s) ∨
       (ch.status.busy = true ∧ t = s.setChannel c ch.advance)) := by
  unfold State.advance at h
  split at h
  · cases h
  · rename_i ch hc
    rcases hb : ch.status.busy with _ | _
    · simp only [hb, Bool.false_eq_true, if_false] at h
      exact ⟨ch, hc, .inl ⟨hb, by injection h with h; exact h.symm⟩⟩
    · simp only [hb, if_true] at h
      exact ⟨ch, hc, .inr ⟨hb, by injection h with h; exact h.symm⟩⟩

/-- The channel a grant serves exists and is requesting. -/
theorem State.grantee_some {s : State} {c : Nat} (h : s.grantee = some c) :
    ∃ ch, s.channels[c]? = some ch ∧ ch.requesting = true := by
  have hr : s.requestingAt c = true := List.find?_some h
  unfold State.requestingAt at hr
  split at hr
  · rename_i ch hc
    exact ⟨ch, hc, hr⟩
  · cases hr

/-- A requesting channel exists. -/
theorem State.requestingAt_lt {s : State} {c : Nat} (h : s.requestingAt c = true) :
    c < s.channels.length := by
  unfold State.requestingAt at h
  split at h
  · rename_i hc
    exact (List.getElem?_eq_some_iff.mp hc).1
  · cases h

/-- A channel that has been granted is not requesting, whether it got a word or faulted. -/
theorem Channel.granted_not_requesting (ch : Channel) (h : Hidden) :
    (ch.granted h).requesting = false := by
  unfold Channel.granted
  split
  · split <;> rfl
  · rename_i hp; simp [Channel.requesting, hp]
  · rename_i hp; simp [Channel.requesting, hp]

/-- All that a grant can have done. -/
theorem State.grantOne_next {s t : State} (h : s.grantOne = .next t) :
    (s.grantee = none ∧ t = s) ∨
    ∃ c ch, s.grantee = some c ∧ s.channels[c]? = some ch ∧ ch.requesting = true ∧
      t = { s.setChannel c (ch.granted s.freshHidden) with
            nextGrant := (c + 1) % s.channels.length, freeIndex := s.freeIndex + 1 } := by
  rcases hg : s.grantee with _ | c
  · simp only [State.grantOne, hg] at h
    exact .inl ⟨rfl, by injection h with h; exact h.symm⟩
  · obtain ⟨ch, hc, hr⟩ := State.grantee_some hg
    simp only [State.grantOne, hg, hc] at h
    exact .inr ⟨c, ch, rfl, hc, hr, by injection h with h; exact h.symm⟩

/-- All that a WAIT can have done: end, let a busy channel complete, or poll in vain. -/
theorem State.waitFor_next {s t : State} {c : Nat} (h : s.waitFor c = .next t) :
    ∃ ch, s.channels[c]? = some ch ∧
      ((ch.status.waitOver = true ∧ t = s.poll ch) ∨
       (ch.status.waitOver = false ∧ ∃ d,
         State.runChannel { s with pending := .wait c :: s.pending } d = .next t ∧
         ((d = c ∧ ch.status.busy = true) ∨ s.firstBusy = some d)) ∨
       (ch.status.waitOver = false ∧ ch.status.busy = false ∧ s.firstBusy = none ∧
         t = State.poll { s with pending := .wait c :: s.pending } ch)) := by
  unfold State.waitFor at h
  split at h
  · cases h
  · rename_i ch hc
    refine ⟨ch, hc, ?_⟩
    rcases ho : ch.status.waitOver with _ | _
    · rcases hb : ch.status.busy with _ | _
      · rcases hf : s.firstBusy with _ | d
        · simp only [ho, hb, hf, Bool.false_eq_true, if_false] at h
          exact .inr (.inr ⟨rfl, rfl, rfl, by injection h with h; exact h.symm⟩)
        · simp only [ho, hb, hf, Bool.false_eq_true, if_false] at h
          exact .inr (.inl ⟨rfl, d, h, .inr rfl⟩)
      · simp only [ho, hb, Bool.false_eq_true, if_false, if_true] at h
        exact .inr (.inl ⟨rfl, c, h, .inl ⟨rfl, rfl⟩⟩)
    · simp only [ho, if_true] at h
      exact .inl ⟨rfl, by injection h with h; exact h.symm⟩

/-! ### One step -/

/-- A step with an input pending takes it. -/
theorem step_of_event {s : State} {e : Event} {rest : List Event} (h : s.pending = e :: rest) :
    step s = State.takeEvent { s with pending := rest } e := by
  simp [step, State.stepOnce, h]

/-- A step with no input pending completes the lowest-numbered busy channel. -/
theorem step_of_busy {s : State} {c : Nat} (h : s.pending = []) (hf : s.firstBusy = some c) :
    step s = s.runChannel c := by
  simp only [step, State.stepOnce, h, hf]

/-- A step with no input pending and no busy channel changes nothing. -/
theorem step_of_idle {s : State} (h : s.pending = []) (hf : s.firstBusy = none) :
    step s = .next s := by
  simp only [step, State.stepOnce, h, hf]

/-- All that a step that answers a next state can have done. -/
theorem step_next {s t : State} (h : step s = .next t) :
    (s.pending = [] ∧ s.firstBusy = none ∧ t = s) ∨
    (s.pending = [] ∧ ∃ c, s.firstBusy = some c ∧ s.runChannel c = .next t) ∨
    ∃ e rest, s.pending = e :: rest ∧ State.takeEvent { s with pending := rest } e = .next t := by
  rcases hp : s.pending with _ | ⟨e, rest⟩
  · rcases hf : s.firstBusy with _ | c
    · rw [step_of_idle hp hf] at h
      exact .inl ⟨rfl, rfl, by injection h with h; exact h.symm⟩
    · rw [step_of_busy hp hf] at h
      exact .inr (.inl ⟨rfl, c, rfl, h⟩)
  · rw [step_of_event hp] at h
    exact .inr (.inr ⟨e, rest, rfl, h⟩)

/-- The sequencer's turn keeps the number of channels and the arbiter's position. -/
theorem State.runChannel_frame {s t : State} {c : Nat} (h : s.runChannel c = .next t) :
    t.channels.length = s.channels.length ∧ t.nextGrant = s.nextGrant := by
  obtain ⟨ch, _, ⟨_, rfl⟩ | ⟨_, rfl⟩⟩ := State.runChannel_next h
  · exact ⟨rfl, rfl⟩
  · exact ⟨List.length_set, rfl⟩

/-- Every step keeps the number of channels (R223). -/
theorem step_channels_length {s t : State} (h : step s = .next t) :
    t.channels.length = s.channels.length := by
  rcases step_next h with ⟨_, _, rfl⟩ | ⟨_, c, _, h⟩ | ⟨e, rest, _, h⟩
  · rfl
  · exact (State.runChannel_frame h).1
  · cases e with
    | write i v => obtain ⟨ch, _, rfl⟩ := State.hostWrite_next h; exact List.length_set
    | read i => obtain ⟨ch, _, rfl⟩ := State.hostRead_next h; rfl
    | wait c =>
      obtain ⟨ch, _, ⟨_, rfl⟩ | ⟨_, d, h, _⟩ | ⟨_, _, _, rfl⟩⟩ := State.waitFor_next h
      · rfl
      · have hl := (State.runChannel_frame h).1
        exact hl
      · rfl
    | complete c =>
      have hl := (State.runChannel_frame (c := c) h).1
      exact hl
    | advance c =>
      obtain ⟨ch, _, ⟨_, rfl⟩ | ⟨_, rfl⟩⟩ := State.advance_next h
      · rfl
      · exact List.length_set
    | grant =>
      rcases State.grantOne_next h with ⟨_, rfl⟩ | ⟨c, ch, _, _, _, rfl⟩
      · rfl
      · exact List.length_set
    | reset => injection h with h; subst h; exact List.length_map ..

/-- The register-space index of register `r` of channel `c` leads back to both (R61). -/
theorem index_of_register (c : Nat) (r : BitVec 3) :
    indexChannel (8 * c + r.toNat) = c ∧ indexReg (8 * c + r.toNat) = r := by
  have hr : r.toNat < 8 := r.isLt
  refine ⟨by unfold indexChannel; omega, ?_⟩
  apply BitVec.eq_of_toNat_eq
  simp only [indexReg, BitVec.toNat_ofNat]
  omega

end Sys2Proof.Machine
end

