-- ==== Sys2Proof/Laws/PerInstr.lean ====
section
/-! SUPPORT. The family of statements made per command: the encoding of every command is a well-formed
raw command (spec/30_encoding.md R70, R71). -/

namespace Sys2Proof

/-- The byte of `i` splits into a well-formed raw command whose opcode is `i`'s. -/
def Laws.EncodedByte.Statement (i : Instr) : Prop :=
  (Command.ofByte (encode i)).wellFormed = true ∧ (Command.ofByte (encode i)).op = i.opcode

theorem Laws.EncodedByte.mul : Laws.EncodedByte.Statement .mul := ⟨rfl, rfl⟩
theorem Laws.EncodedByte.div : Laws.EncodedByte.Statement .div := ⟨rfl, rfl⟩
theorem Laws.EncodedByte.log2 : Laws.EncodedByte.Statement .log2 := ⟨rfl, rfl⟩
theorem Laws.EncodedByte.ln : Laws.EncodedByte.Statement .ln := ⟨rfl, rfl⟩
theorem Laws.EncodedByte.pow2 : Laws.EncodedByte.Statement .pow2 := ⟨rfl, rfl⟩
theorem Laws.EncodedByte.invPow2 : Laws.EncodedByte.Statement .invPow2 := ⟨rfl, rfl⟩
theorem Laws.EncodedByte.exp : Laws.EncodedByte.Statement .exp := ⟨rfl, rfl⟩
theorem Laws.EncodedByte.invExp : Laws.EncodedByte.Statement .invExp := ⟨rfl, rfl⟩
theorem Laws.EncodedByte.pow : Laws.EncodedByte.Statement .pow := ⟨rfl, rfl⟩
theorem Laws.EncodedByte.invPow : Laws.EncodedByte.Statement .invPow := ⟨rfl, rfl⟩

end Sys2Proof
end

