-- ==== Sys2Proof/Laws/Rom.lean ====
section
/-! SUPPORT. What a ROM read answers (spec/20_memory.md R42, R43), table by table, and what the two
exact operations answer (spec/40_core_arith.md R91, R96). -/

namespace Sys2Proof.Machine

/-- The two fields of a word address come back out (R40). -/
theorem romAddr_fields (t : Table) (i : BitVec 5) :
    romAddrTable (romAddr t i) = t ∧ romAddrIndex (romAddr t i) = i := by
  revert t i
  decide +kernel

/-- A read at an address built from a table and an index, where the table has that entry. -/
theorem memRead_romAddr {t : Table} {i : BitVec 5} {w : Word} (h : (romTable t)[i.toNat]? = some w) :
    memRead (romAddr t i) = .ok w := by
  simp only [memRead, (romAddr_fields t i).1, (romAddr_fields t i).2, h]

/-- A read at an address built from a table and an index, where the table has no such entry. -/
theorem memRead_romAddr_none {t : Table} {i : BitVec 5} (h : (romTable t)[i.toNat]? = none) :
    memRead (romAddr t i) = .error .tableBound := by
  simp only [memRead, (romAddr_fields t i).1, (romAddr_fields t i).2, h]

/-- A read below a table's length answers its entry. -/
theorem rom_of_lt {t : Table} {i : Nat} (h : i < (romTable t).length) (h32 : i < 32) :
    rom t i = .ok ((romTable t).getD i 0) := by
  have hi : (BitVec.ofNat 5 i).toNat = i := by
    rw [BitVec.toNat_ofNat]; omega
  refine memRead_romAddr ?_
  rw [hi, List.getD, List.getElem?_eq_getElem h]
  rfl

theorem log2T_length : log2T.length = 20 := rfl
theorem invLog2T_length : invLog2T.length = 20 := rfl
theorem expPosT_length : expPosT.length = 9 := rfl
theorem expNegT_length : expNegT.length = 20 := rfl
theorem invExpPosT_length : invExpPosT.length = 8 := rfl
theorem invExpNegT_length : invExpNegT.length = 20 := rfl
theorem constT_length : constT.length = 1 := rfl

theorem rom_log2 {i : Nat} (h : i < 20) : rom tblLog2 i = .ok (log2T.getD i 0) :=
  rom_of_lt (t := tblLog2) h (by omega)
theorem rom_invLog2 {i : Nat} (h : i < 20) : rom tblInvLog2 i = .ok (invLog2T.getD i 0) :=
  rom_of_lt (t := tblInvLog2) h (by omega)
theorem rom_expPos {i : Nat} (h : i < 9) : rom tblExpPos i = .ok (expPosT.getD i 0) :=
  rom_of_lt (t := tblExpPos) h (by omega)
theorem rom_expNeg {i : Nat} (h : i < 20) : rom tblExpNeg i = .ok (expNegT.getD i 0) :=
  rom_of_lt (t := tblExpNeg) h (by omega)
theorem rom_invExpPos {i : Nat} (h : i < 8) : rom tblInvExpPos i = .ok (invExpPosT.getD i 0) :=
  rom_of_lt (t := tblInvExpPos) h (by omega)
theorem rom_invExpNeg {i : Nat} (h : i < 20) : rom tblInvExpNeg i = .ok (invExpNegT.getD i 0) :=
  rom_of_lt (t := tblInvExpNeg) h (by omega)
theorem rom_const : rom tblConst 0 = .ok 0xB17217F7D1CF79AC := rfl

/-- `mulQ` where the shifted product fits (R91). -/
theorem mulQ_of_fits {a b : Word} (h : a.toNat * b.toNat / 2 ^ 64 < 2 ^ 256) :
    mulQ a b = .ok (BitVec.ofNat 256 (a.toNat * b.toNat / 2 ^ 64)) := by
  simp only [mulQ, h, if_true]

/-- `mulQ` where it does not (R91). -/
theorem mulQ_of_overflow {a b : Word} (h : 2 ^ 256 ≤ a.toNat * b.toNat / 2 ^ 64) :
    mulQ a b = .error (.failure .overflow) := by
  simp only [mulQ, Nat.not_lt.mpr h, if_false]

/-- The value of a multiplication that succeeds (R91). -/
theorem mulQ_ok {a b v : Word} (h : mulQ a b = .ok v) :
    v.toNat = a.toNat * b.toNat / 2 ^ 64 := by
  rcases Nat.lt_or_ge (a.toNat * b.toNat / 2 ^ 64) (2 ^ 256) with hlt | hge
  · rw [mulQ_of_fits hlt] at h
    injection h with h
    rw [← h, BitVec.toNat_ofNat, Nat.mod_eq_of_lt hlt]
  · rw [mulQ_of_overflow hge] at h
    cases h

/-- The value of a division inside the domain (R96, R98). -/
theorem divQ_of_domain {a b : Word} (hb : b.toNat ≠ 0) (ha : a.toNat < 2 ^ 192)
    (hq : a.toNat * 2 ^ 64 / b.toNat < 2 ^ 256) :
    divQ a b = .ok (BitVec.ofNat 256 (a.toNat * 2 ^ 64 / b.toNat)) := by
  simp only [divQ, hb, Nat.not_le.mpr ha, hq, if_true, if_false]

end Sys2Proof.Machine
end

