-- ==== Sys2Proof/Laws/Values.lean ====
section
/-! SUPPORT. No evaluation of a command reads the ROM outside its tables (spec/20_memory.md R52): none
ends in `tableBound`, so every command byte has an outcome in `Exec` (spec/44_derived.md R173). -/

namespace Sys2Proof.Machine

/-- A sequence of two evaluations avoids the bound violation when both do. -/
theorem bind_ne_tableBound {α : Type} {x : Except Abort α} {f : α → Except Abort Word}
    (hx : x ≠ .error .tableBound) (hf : ∀ v, f v ≠ .error .tableBound) :
    (x >>= f) ≠ .error .tableBound := by
  rcases x with e | v
  · intro h; injection h with h; subst h; exact hx rfl
  · exact hf v

theorem mulQ_ne_tableBound (a b : Word) : mulQ a b ≠ .error .tableBound := by
  unfold mulQ; dsimp only; split <;> simp

theorem divQ_ne_tableBound (a b : Word) : divQ a b ≠ .error .tableBound := by
  unfold divQ; dsimp only; split
  · simp
  · split
    · simp
    · split <;> simp

theorem rom_ne_tableBound {t : Table} {i : Nat} (h : i < (romTable t).length) (h32 : i < 32) :
    rom t i ≠ .error .tableBound := by
  rw [rom_of_lt h h32]; intro h; cases h

/-- The fraction loop stays inside a table of 20 entries. -/
theorem fracLoop_ne_tableBound {t : Table} (f : BitVec 64) (ht : 20 ≤ (romTable t).length) :
    ∀ n i r, n + i ≤ 20 → fracLoop t f n i r ≠ .error .tableBound
  | 0, _, _, _ => by simp [fracLoop]
  | n + 1, i, r, h => by
    unfold fracLoop
    split
    · exact bind_ne_tableBound (rom_ne_tableBound (by omega) (by omega)) fun w =>
        bind_ne_tableBound (mulQ_ne_tableBound r w) fun r' =>
          fracLoop_ne_tableBound f ht n (i + 1) r' (by omega)
    · exact fracLoop_ne_tableBound f ht n (i + 1) r (by omega)

/-- The integer loop stays inside the first 8 entries of its table. -/
theorem intLoop_ne_tableBound {t : Table} (k : Nat) (ht : 8 ≤ (romTable t).length) :
    ∀ n j r, n + j ≤ 8 → intLoop t k n j r ≠ .error .tableBound
  | 0, _, _, _ => by simp [intLoop]
  | n + 1, j, r, h => by
    unfold intLoop
    split
    · exact bind_ne_tableBound (rom_ne_tableBound (by omega) (by omega)) fun w =>
        bind_ne_tableBound (mulQ_ne_tableBound r w) fun r' =>
          intLoop_ne_tableBound k ht n (j + 1) r' (by omega)
    · exact intLoop_ne_tableBound k ht n (j + 1) r (by omega)

/-- The loop of the log2 engine reads `LOG2T[0]` to `LOG2T[19]` and no further. -/
theorem log2Loop_ne_tableBound :
    ∀ n i m f, n + i ≤ 20 → log2Loop n i m f ≠ .error .tableBound
  | 0, _, _, _, _ => by simp [log2Loop]
  | n + 1, i, m, f, h => by
    unfold log2Loop
    rw [rom_log2 (by omega)]
    simp only [bind, Except.bind]
    split
    · split
      · rename_i e he
        intro h2; injection h2 with h2; subst h2; exact divQ_ne_tableBound _ _ he
      · exact log2Loop_ne_tableBound n (i + 1) _ _ (by omega)
    · exact log2Loop_ne_tableBound n (i + 1) _ _ (by omega)

theorem log2Q_ne_tableBound (a : Word) : log2Q a ≠ .error .tableBound := by
  unfold log2Q
  split
  · simp
  · simp only [bind, Except.bind]
    split
    · rename_i e he
      intro h; injection h with h; subst h
      exact log2Loop_ne_tableBound _ _ _ _ (by omega) he
    · simp

theorem lnQ_ne_tableBound (a : Word) : lnQ a ≠ .error .tableBound := by
  unfold lnQ
  refine bind_ne_tableBound (log2Q_ne_tableBound a) fun l =>
    bind_ne_tableBound ?_ fun c => mulQ_ne_tableBound l c
  rw [rom_const]; intro h; cases h

theorem pow2Q_ne_tableBound (x : Word) : pow2Q x ≠ .error .tableBound := by
  unfold pow2Q
  split
  · simp
  · exact bind_ne_tableBound (fracLoop_ne_tableBound _ (by decide) _ _ _ (by omega)) fun _ =>
      mulQ_ne_tableBound _ _

theorem invPow2Q_ne_tableBound (x : Word) : invPow2Q x ≠ .error .tableBound := by
  unfold invPow2Q
  split
  · simp
  · exact bind_ne_tableBound (fracLoop_ne_tableBound _ (by decide) _ _ _ (by omega)) fun _ => by simp

theorem expQ_ne_tableBound (a : Word) : expQ a ≠ .error .tableBound := by
  unfold expQ
  split
  · simp
  · exact bind_ne_tableBound (fracLoop_ne_tableBound _ (by decide) _ _ _ (by omega)) fun _ =>
      intLoop_ne_tableBound _ (by decide) _ _ _ (by omega)

theorem invExpQ_ne_tableBound (a : Word) : invExpQ a ≠ .error .tableBound := by
  unfold invExpQ
  split
  · simp
  · exact bind_ne_tableBound (fracLoop_ne_tableBound _ (by decide) _ _ _ (by omega)) fun _ =>
      intLoop_ne_tableBound _ (by decide) _ _ _ (by omega)

theorem powQ_ne_tableBound (a p : Word) : powQ a p ≠ .error .tableBound := by
  unfold powQ
  exact bind_ne_tableBound (log2Q_ne_tableBound a) fun l =>
    bind_ne_tableBound (mulQ_ne_tableBound p l) pow2Q_ne_tableBound

theorem invPowQ_ne_tableBound (a p : Word) : invPowQ a p ≠ .error .tableBound := by
  unfold invPowQ
  exact bind_ne_tableBound (log2Q_ne_tableBound a) fun l =>
    bind_ne_tableBound (mulQ_ne_tableBound p l) invPow2Q_ne_tableBound

/-- No command violates a table's bound, whatever its operands (R52). -/
theorem commandValue_ne_tableBound (i : Instr) (a b : Word) :
    commandValue i a b ≠ .error .tableBound := by
  cases i <;> unfold commandValue
  · exact mulQ_ne_tableBound _ _
  · exact divQ_ne_tableBound _ _
  · exact log2Q_ne_tableBound _
  · exact lnQ_ne_tableBound _
  · exact pow2Q_ne_tableBound _
  · exact invPow2Q_ne_tableBound _
  · exact expQ_ne_tableBound _
  · exact invExpQ_ne_tableBound _
  · exact powQ_ne_tableBound _ _
  · exact invPowQ_ne_tableBound _ _

/-- No command byte violates a table's bound, whatever its operands. -/
theorem byteValue_ne_tableBound (c : Byte) (a b : Word) : byteValue c a b ≠ .error .tableBound := by
  rcases h : decode c with e | i
  · simp only [byteValue, h]; simp
  · simp only [byteValue, h]; exact commandValue_ne_tableBound i a b

end Sys2Proof.Machine
end

