-- ==== Sys2Proof/Tests/Slice0.lean ====
section
/-! SUPPORT. Tests. Expected values are those of spec/95_test_vectors.md (the vector's id stands in the
comment) or are worked out by hand from the rule named. The witnesses at the end show, for each
statement of Certificates/Slice0/Obligations.lean that has hypotheses, a state and operands that meet
them together, clause by clause. -/

-- One theorem at a time: the memory the file takes stays small.
set_option Elab.async false

namespace Sys2Proof.Machine.Tests

/-! ### WellFormed: each check refuses an ill-formed raw command (R73, R74) -/

theorem test_wellformed_accepts_mul : Command.wellFormed { rsv := 0, op := 0 } = true := by decide
theorem test_wellformed_accepts_last : Command.wellFormed { rsv := 0, op := 9 } = true := by decide
theorem test_wellformed_refuses_reserved_bits :
    Command.wellFormed { rsv := 1, op := 0 } = false := by decide
theorem test_wellformed_refuses_reserved_opcode :
    Command.wellFormed { rsv := 0, op := 10 } = false := by decide

/-! ### Decode: words written out from the format of R70, `RSV` in bits 7:4, `OP` in bits 3:0 -/

theorem test_decode_mul : decode 0b00000000#8 = .ok .mul := by decide
theorem test_decode_div : decode 0b00000001#8 = .ok .div := by decide
theorem test_decode_log2 : decode 0b00000010#8 = .ok .log2 := by decide
theorem test_decode_ln : decode 0b00000011#8 = .ok .ln := by decide
theorem test_decode_pow2 : decode 0b00000100#8 = .ok .pow2 := by decide
theorem test_decode_invPow2 : decode 0b00000101#8 = .ok .invPow2 := by decide
theorem test_decode_exp : decode 0b00000110#8 = .ok .exp := by decide
theorem test_decode_invExp : decode 0b00000111#8 = .ok .invExp := by decide
theorem test_decode_pow : decode 0b00001000#8 = .ok .pow := by decide
theorem test_decode_invPow : decode 0b00001001#8 = .ok .invPow := by decide
theorem test_decode_reserved_opcode : decode 0b00001010#8 = .error .reservedOpcode := by decide
theorem test_decode_reserved_bits : decode 0b00010000#8 = .error .reservedBits := by decide
theorem test_decodeTableWord_last : decodeTableWord 8 9 = some .invPow := by decide

/-! ### The commands, one completion each on a machine of two channels -/

/-- A channel with the given operands, command byte and BUSY bit. -/
def channelOf (a b : Word) (c : Byte) (busy : Bool) : Channel :=
  { Channel.reset with opa := a, opb := b, cmd := c, status := { Status.reset with busy := busy } }

/-- Two channels, the first running a command, and the pending inputs. -/
def machineOf (a b : Word) (c : Byte) (busy : Bool) (pending : List Event) : State :=
  { State.resetOf 2 with channels := [channelOf a b c busy, Channel.reset], pending := pending }

/-- `ERR`, `RES` and `DONE` of channel 0 after an outcome; `none` for a stop. -/
def report (o : Host.Outcome State Fault Refusal) : Option (BitVec 3 × Word × Bool) :=
  match o with
  | .next t => t.channels.head?.map fun ch => (ch.status.err, ch.res, ch.status.done)
  | .fault _ => none
  | .refused _ => none

def completion (i : Instr) (a b : Word) : Option (BitVec 3 × Word × Bool) :=
  report (exec i (machineOf a b (encode i) true []))

-- MUL-8: the largest product below 2^320
theorem test_mul_below_limit :
    completion .mul (BitVec.ofNat 256 (2 ^ 255)) 0x1FFFFFFFFFFFFFFFF =
      some (0, BitVec.ofNat 256 (2 ^ 256 - 2 ^ 191), true) := by decide +kernel
-- MUL-7: the product 2^320
theorem test_mul_overflow :
    completion .mul (BitVec.ofNat 256 (2 ^ 255)) 0x20000000000000000 = some (2, 0, true) := by
  decide +kernel
-- DIV-17
theorem test_div_rounds_down :
    completion .div 0x10000000000000000 0x5555555555555555 =
      some (0, 0x30000000000000003, true) := by decide +kernel
-- DIV-7: both failure conditions
theorem test_div_by_zero_first :
    completion .div (BitVec.ofNat 256 (2 ^ 192)) 0 = some (3, 0, true) := by decide +kernel
-- LOG2-12; a non-zero OPB is ignored
theorem test_log2_of_three :
    completion .log2 0x30000000000000000 7 = some (0, 0x195C0100000000000, true) := by
  decide +kernel
-- LOG2-2
theorem test_log2_below_one :
    completion .log2 0xFFFFFFFFFFFFFFFF 0 = some (1, 0, true) := by decide +kernel
-- LN-8
theorem test_ln_of_ten :
    completion .ln 0xA0000000000000000 0 = some (0, 0x24D7636A48040C7AB, true) := by
  decide +kernel
-- LN-2
theorem test_ln_below_one :
    completion .ln 0xFFFFFFFFFFFFFFFF 0 = some (1, 0, true) := by decide +kernel
-- POW2-7
theorem test_pow2_of_1_75 :
    completion .pow2 0x1C000000000000000 0 = some (0, 0x35D13F32B5A75ABD2, true) := by
  decide +kernel
-- POW2-15
theorem test_pow2_overflow :
    completion .pow2 0xC00000000000000000 0 = some (2, 0, true) := by decide +kernel
-- INVPOW2-11: the largest operand of the domain
theorem test_invPow2_last :
    completion .invPow2 0x28FFFFFFFFFFFFFFFF 0 = some (0, 0x800005, true) := by decide +kernel
-- INVPOW2-12
theorem test_invPow2_domain :
    completion .invPow2 0x290000000000000000 0 = some (1, 0, true) := by decide +kernel
-- EXP-17: the largest operand that succeeds
theorem test_exp_last :
    completion .exp 0x851591FFFFFFFFFFFF 0 =
      some (0, 0xFFFFF622A495670F91DE9191771592813D5436683BE70B9C640B692D99BA7A5E, true) := by
  decide +kernel
-- EXP-18: fails below the guard
theorem test_exp_first_overflow :
    completion .exp 0x851592000000000000 0 = some (2, 0, true) := by decide +kernel
-- INVEXP-14: the bound itself
theorem test_invExp_bound :
    completion .invExp 0x200000000000000000 0 = some (0, 0x3908D, true) := by decide +kernel
-- INVEXP-15
theorem test_invExp_domain :
    completion .invExp 0x200000000000000001 0 = some (1, 0, true) := by decide +kernel
-- POW-2: base in OPA, exponent in OPB
theorem test_pow_three_squared :
    completion .pow 0x30000000000000000 0x20000000000000000 =
      some (0, 0x8FFFF80685951F090, true) := by decide +kernel
-- POW-12
theorem test_pow_overflow :
    completion .pow 0x40000000000000000 0x600000000000000000 = some (2, 0, true) := by
  decide +kernel
-- INVPOW-6
theorem test_invPow_ten_half :
    completion .invPow 0xA0000000000000000 0x8000000000000000 =
      some (0, 0x50F44DAA5C0B94EA, true) := by decide +kernel
-- INVPOW-13: the multiplication overflows before the domain test of the outer stage
theorem test_invPow_overflow :
    completion .invPow 0x40000000000000000 (BitVec.allOnes 256) = some (2, 0, true) := by
  decide +kernel

/-! ### Steps -/

-- ILL-4: RSV is not 0, the operands are not examined
theorem test_illegal_byte :
    report (step (machineOf 5 0 0x81 true [])) = some (4, 0, true) := by decide +kernel
-- S4 through the fetch: EXP of 0 as the first command after reset
theorem test_withFetchWord_runs_exp :
    report (step (State.reset.withFetchWord 8 6)) = some (0, 0x10000000000000000, true) := by
  decide +kernel
-- SEQ-4 step 9: a start stores the byte and clears the previous outcome
theorem test_start_stores_byte :
    (match step (machineOf 1 2 0 false [.write 2 0x2A]) with
     | .next t => t.channels.head?.map fun ch => (ch.cmd, ch.status.byte)
     | .fault _ => none
     | .refused _ => none) = some (0x2A, 0x01) := by decide +kernel
-- SEQ-2 step 4: a write while busy is ignored
theorem test_write_while_busy :
    (match step (machineOf 1 2 6 true [.write 0 9]) with
     | .next t => t.channels.head?.map Channel.opa
     | .fault _ => none
     | .refused _ => none) = some 1 := by decide +kernel
-- R15: DONE with ERR = 3 reads 0x0E (SEQ-3 step 5)
theorem test_status_byte :
    Status.byte { busy := false, done := true, err := 3, fault := false } = 0x0E := by decide
-- R212: a fault reads 0x80
theorem test_status_byte_fault : Status.reset.faulted.byte = 0x80 := by decide
-- R61: register 2 of channel 1 is index 10
theorem test_register_index : regIndex 1 regCMD = 10 := by decide
-- R80: INVPOW is `WR CMD, 0x09`
theorem test_bare_mnemonic : bareMnemonic 0 .invPow = .wr 0 2 (.lit 9) := by decide
-- R80 with the suffix of R79: `MUL@1 a, b` is four statements on channel 1
theorem test_mnemonic_on_channel_one :
    mnemonicWithOperands 1 .mul (.lit 5) (.lit 6) =
      [.wr 1 0 (.lit 5), .wr 1 1 (.lit 6), .wr 1 2 (.lit 0), .wait 1] := by decide
-- TRACE-2: POW2 of 1.75 on the hidden engine, after the two selected entries
theorem test_engine_trace :
    (runEngine .pow2 0x1C000000000000000 0 3 Hidden.reset).acc = 0x1AE89F995AD3AD5E9 := by
  decide +kernel
-- R42: table 7 and the tail of EXPPOS hold no word
theorem test_rom_tail : memRead 0x49 = .error .tableBound ∧ memRead 0xE0 = .error .tableBound := by
  decide

/-! ### Witnesses for the hypotheses of the statements -/

/-- `Running` is met by every machine built above, whatever the operands and the command. -/
theorem witness_running (a b : Word) (c : Byte) : (machineOf a b c true []).Running a b :=
  ⟨channelOf a b c true, rfl, rfl, rfl, rfl⟩

theorem witness_mul_clauses :
    (machineOf (BitVec.ofNat 256 (2 ^ 255)) 0x1FFFFFFFFFFFFFFFF 0 true []).Running
      (BitVec.ofNat 256 (2 ^ 255)) 0x1FFFFFFFFFFFFFFFF ∧
    (BitVec.ofNat 256 (2 ^ 255)).toNat * (0x1FFFFFFFFFFFFFFFF : Word).toNat < 2 ^ 320 ∧
    ¬ (BitVec.ofNat 256 (2 ^ 255)).toNat * (0x20000000000000000 : Word).toNat < 2 ^ 320 :=
  ⟨witness_running _ _ _, by decide +kernel, by decide +kernel⟩

theorem witness_div_clauses :
    (machineOf (BitVec.ofNat 256 (2 ^ 192)) 0 1 true []).Running (BitVec.ofNat 256 (2 ^ 192)) 0 ∧
    (2 ^ 192 ≤ (BitVec.ofNat 256 (2 ^ 192)).toNat ∧ (1 : Word) ≠ 0) ∧
    ¬ 2 ^ 192 ≤ (BitVec.ofNat 256 (2 ^ 192 - 1)).toNat :=
  ⟨witness_running _ _ _, by decide +kernel, by decide +kernel⟩

theorem witness_log2_clauses :
    (machineOf 0xFFFFFFFFFFFFFFFF 0 2 true []).Running 0xFFFFFFFFFFFFFFFF 0 ∧
    (0xFFFFFFFFFFFFFFFF : Word).toNat < 2 ^ 64 ∧ ¬ (0x10000000000000000 : Word).toNat < 2 ^ 64 :=
  ⟨witness_running _ _ _, by decide +kernel, by decide +kernel⟩

theorem witness_ln_clauses :
    (machineOf 0xFFFFFFFFFFFFFFFF 0 3 true []).Running 0xFFFFFFFFFFFFFFFF 0 ∧
    (0xFFFFFFFFFFFFFFFF : Word).toNat < 2 ^ 64 ∧ ¬ (0x10000000000000000 : Word).toNat < 2 ^ 64 :=
  ⟨witness_running _ _ _, by decide +kernel, by decide +kernel⟩

theorem witness_pow2_clauses :
    (machineOf 0xBFFFFFFFFFFFFFFFFF 0 4 true []).Running 0xBFFFFFFFFFFFFFFFFF 0 ∧
    (0xBFFFFFFFFFFFFFFFFF : Word).toNat < 192 * 2 ^ 64 ∧
    ¬ (0xC00000000000000000 : Word).toNat < 192 * 2 ^ 64 :=
  ⟨witness_running _ _ _, by decide +kernel, by decide +kernel⟩

theorem witness_invPow2_clauses :
    (machineOf 0x28FFFFFFFFFFFFFFFF 0 5 true []).Running 0x28FFFFFFFFFFFFFFFF 0 ∧
    (0x28FFFFFFFFFFFFFFFF : Word).toNat / 2 ^ 64 < 41 ∧
    ¬ (0x290000000000000000 : Word).toNat / 2 ^ 64 < 41 :=
  ⟨witness_running _ _ _, by decide +kernel, by decide +kernel⟩

/-- The last operand that succeeds, the first that overflows below the guard, and the guard. -/
theorem witness_exp_clauses :
    (machineOf 0x851591FFFFFFFFFFFF 0 6 true []).Running 0x851591FFFFFFFFFFFF 0 ∧
    ((0x851591FFFFFFFFFFFF : Word).toNat < 134 * 2 ^ 64 ∧
      refExp (0x851591FFFFFFFFFFFF : Word).toNat < 2 ^ 256) ∧
    ¬ refExp (0x851592000000000000 : Word).toNat < 2 ^ 256 ∧
    ¬ (0x860000000000000000 : Word).toNat < 134 * 2 ^ 64 :=
  ⟨witness_running _ _ _, by decide +kernel, by decide +kernel, by decide +kernel⟩

theorem witness_invExp_clauses :
    (machineOf 0x200000000000000000 0 7 true []).Running 0x200000000000000000 0 ∧
    (0x200000000000000000 : Word).toNat ≤ 2 ^ 69 ∧ ¬ (0x200000000000000001 : Word).toNat ≤ 2 ^ 69 :=
  ⟨witness_running _ _ _, by decide +kernel, by decide +kernel⟩

/-- POW: the base below 1.0; the multiplication's limit; the domain's limit on both sides. -/
theorem witness_pow_clauses :
    (machineOf 0x40000000000000000 0x600000000000000000 8 true []).Running
      0x40000000000000000 0x600000000000000000 ∧
    (0xFFFFFFFFFFFFFFFF : Word).toNat < 2 ^ 64 ∧
    2 ^ 320 ≤ (BitVec.ofNat 256 (2 ^ 255)).toNat * refLog2 (0x40000000000000000 : Word).toNat ∧
    192 * 2 ^ 64 ≤ (0x600000000000000000 : Word).toNat *
      refLog2 (0x40000000000000000 : Word).toNat / 2 ^ 64 ∧
    ¬ 192 * 2 ^ 64 ≤ (0x5FFFFFFFFFFFFFFFFF : Word).toNat *
      refLog2 (0x40000000000000000 : Word).toNat / 2 ^ 64 :=
  ⟨witness_running _ _ _, by decide +kernel, by decide +kernel, by decide +kernel,
    by decide +kernel⟩

theorem witness_invPow_clauses :
    (machineOf 0x40000000000000000 0x148000000000000000 9 true []).Running
      0x40000000000000000 0x148000000000000000 ∧
    (0xFFFFFFFFFFFFFFFF : Word).toNat < 2 ^ 64 ∧
    2 ^ 320 ≤ (BitVec.ofNat 256 (2 ^ 255)).toNat * refLog2 (0x40000000000000000 : Word).toNat ∧
    41 ≤ (0x148000000000000000 : Word).toNat *
      refLog2 (0x40000000000000000 : Word).toNat / 2 ^ 64 / 2 ^ 64 ∧
    ¬ 41 ≤ (0x147FFFFFFFFFFFFFFF : Word).toNat *
      refLog2 (0x40000000000000000 : Word).toNat / 2 ^ 64 / 2 ^ 64 :=
  ⟨witness_running _ _ _, by decide +kernel, by decide +kernel, by decide +kernel,
    by decide +kernel⟩

/-- StepRunsTheDecodedCommand, both clauses; CompletionFollowsSpecExec. -/
theorem witness_step_runs :
    (machineOf 3 2 0 true [.complete 0]).channels[0]? = some (channelOf 3 2 0 true) ∧
    (channelOf 3 2 0 true).status.busy = true ∧ decode (channelOf 3 2 0 true).cmd = .ok .mul ∧
    (machineOf 3 2 0 true [.complete 0]).pending = .complete 0 :: [] ∧
    (machineOf 3 2 0 true []).pending = [] :=
  ⟨rfl, rfl, by decide, rfl, rfl⟩

/-- IllegalBytesCompleteAsIllegalCommand: the first reserved opcode, and reserved bits with a defined
opcode. -/
theorem witness_illegal_bytes :
    (machineOf 5 0 0x0A true [.complete 0]).channels[0]? = some (channelOf 5 0 0x0A true) ∧
    9 < ((channelOf 5 0 0x0A true).cmd.extractLsb' 0 4).toNat ∧
    (channelOf 5 0 0x10 true).cmd.extractLsb' 4 4 ≠ 0 :=
  ⟨rfl, by decide, by decide⟩

/-- The same, written to an idle channel. -/
theorem witness_illegal_write :
    (machineOf 5 0 0 false [.write 2 0x10, .complete 0]).pending =
      .write (8 * 0 + 2) 0x10 :: .complete 0 :: [] ∧
    (0x10 : Word).extractLsb' 4 4 ≠ 0 ∧ 9 < ((0x0A : Word).extractLsb' 0 4).toNat :=
  ⟨rfl, by decide, by decide⟩

/-- NothingCompletesOnAChannelThatIsNotBusy; the write statements on an accepting channel, at each of
the registers `OPA`, `OPB`, `CMD` of channel 0 and at the first read-only and the last reserved
number. -/
theorem witness_not_busy :
    (machineOf 3 2 0 false []).channels[(machineOf 3 2 0 false []).active]? =
      some (channelOf 3 2 0 false) ∧
    (channelOf 3 2 0 false).status.busy = false ∧ (channelOf 3 2 0 false).status.fault = false ∧
    (machineOf 3 2 0 false [.write 0 7]).pending = .write (8 * 0) 7 :: [] ∧
    (machineOf 3 2 0 false [.write 1 7]).pending = .write (8 * 0 + 1) 7 :: [] ∧
    (machineOf 3 2 0 false [.write 2 7]).pending = .write (8 * 0 + 2) 7 :: [] ∧
    (machineOf 3 2 0 false [.write 3 7]).pending = .write (8 * 0 + (3 : BitVec 3).toNat) 7 :: [] ∧
    (machineOf 3 2 0 false [.write 7 7]).pending = .write (8 * 0 + (7 : BitVec 3).toNat) 7 :: [] :=
  ⟨rfl, rfl, rfl, rfl, rfl, rfl, rfl, rfl⟩

/-- OneOperandCommandsIgnoreOpb with two different values of `OPB`; DivisionByZeroComesOnlyFromDiv. -/
theorem witness_operands :
    (Instr.log2 = .log2 ∧ (1 : Word) ≠ 2) ∧ specExec 0x01 5 0 = some (3, 0) :=
  ⟨⟨rfl, by decide⟩, by decide +kernel⟩

/-- WritesWhileBusyOrFaultedAreIgnored, the faulted clause: a channel as R212 leaves it. -/
def faultedChannel : Channel := (channelOf 3 2 0 true).takeFault Hidden.reset

theorem witness_faulted :
    faultedChannel.status.fault = true ∧ faultedChannel.status.busy = false ∧
    faultedChannel.EngineInv ∧ faultedChannel.StatusInv :=
  ⟨rfl, rfl, ⟨fun h => absurd h (by decide), fun h => absurd h (by decide), fun _ => rfl⟩,
    by unfold Channel.StatusInv; decide⟩

/-- A running channel that meets the STATUS invariant (WaitEndsWithDone, the busy clause of
ReadsReturnTheRegister, EveryStepKeepsTheStatusInvariant). -/
theorem witness_wait :
    (machineOf 3 2 0 true [.wait 0]).StatusInv ∧
    (machineOf 3 2 0 true [.wait 0]).pending = .wait 0 :: [] ∧
    (machineOf 3 2 0 true [.read 3]).pending = .read (8 * 0 + (3 : BitVec 3).toNat) :: [] := by
  refine ⟨?_, rfl, rfl⟩
  intro ch h
  rcases List.mem_cons.mp h with rfl | h
  · unfold Channel.StatusInv; decide
  · rcases List.mem_cons.mp h with rfl | h
    · unfold Channel.StatusInv; decide
    · cases h

/-- WaitEndsWithDone, the clause of a channel that is already done or faulted. -/
theorem witness_wait_over :
    ((channelOf 3 2 0 true).succeed 6 Hidden.reset).status.done = true ∧
    faultedChannel.status.fault = true ∧
    ({ State.resetOf 1 with channels := [faultedChannel], pending := [.wait 0] } : State).pending =
      .wait 0 :: [] :=
  ⟨rfl, rfl, rfl⟩

/-- The reset state has a pending reset, and an index at the end of the register space of its one
channel is absent (ResetInputRestoresEveryChannel, AccessBeyondTheChannelsStops). -/
theorem witness_reset_and_absent :
    ({ State.reset with pending := [.reset] } : State).pending = .reset :: [] ∧
    8 * State.reset.channels.length ≤ 8 :=
  ⟨rfl, by decide⟩

/-- LOG2 of 3.0, just started, waiting for its first threshold: on the path of its command
(the statements with the engine invariant, a request and a grant). -/
def waitingChannel : Channel :=
  { channelOf 0x30000000000000000 0 2 true with
    hidden := runEngine .log2 0x30000000000000000 0 1 Hidden.reset.atStart,
    romPort := .waiting .log2Engine 0x00 }

def waitingMachine : State :=
  { State.resetOf 1 with channels := [waitingChannel], pending := [.grant] }

theorem waitingChannel_engineInv : waitingChannel.EngineInv := by
  refine ⟨fun _ i hi => ?_, fun _ e he => ?_, fun h => by cases h⟩
  · have hd : decode waitingChannel.cmd = .ok .log2 := by decide
    rw [hd] at hi
    injection hi with hi
    subst hi
    refine ⟨⟨1, Hidden.reset, rfl⟩, fun p addr h => ?_, fun w h => by cases h⟩
    injection h with h1 h2
    subst h1 h2
    decide +kernel
  · have hd : decode waitingChannel.cmd = .ok .log2 := by decide
    rw [hd] at he
    cases he

theorem witness_engine :
    waitingMachine.EngineInv ∧ waitingMachine.FaultFree ∧ waitingMachine.grantee = some 0 ∧
    waitingMachine.requestingAt 0 = true ∧ waitingMachine.channels[0]? = some waitingChannel ∧
    memRead 0x00 = .ok 0x16A09E667F3BCC909 ∧
    waitingMachine.pending = List.replicate waitingMachine.channels.length .grant ++ [] ∧
    waitingMachine.pending.head? ≠ some .reset := by
  refine ⟨fun ch h => ?_, fun ch h => ?_, by decide +kernel, by decide +kernel, rfl, rfl, rfl,
    by decide⟩
  · rcases List.mem_cons.mp h with rfl | h
    · exact waitingChannel_engineInv
    · cases h
  · rcases List.mem_cons.mp h with rfl | h
    · rfl
    · cases h

/-- Two channels waiting, channel 0 next in the round robin: the grant serves channel 0, and channel 1
is one grant away (EveryRequestIsGrantedInTurn, both outcomes; the round-robin clause of
AGrantDeliversTheWord with one channel passed over). -/
def contendingMachine : State :=
  { State.resetOf 2 with channels := [waitingChannel, waitingChannel], pending := [.grant, .grant] }

theorem witness_grant_to_another :
    contendingMachine.requestingAt 1 = true ∧ contendingMachine.grantee = some 0 ∧
    contendingMachine.grantDistance 1 = 1 ∧ contendingMachine.grantDistance 0 = 0 ∧
    contendingMachine.requestingAt 0 = true := by
  decide +kernel

/-- The same channels with channel 1 next: channel 0 is one grant away, the order wraps. -/
theorem witness_grant_wraps :
    State.grantDistance { contendingMachine with nextGrant := 1 } 0 = 1 ∧
    State.grantee { contendingMachine with nextGrant := 1 } = some 1 := by
  decide +kernel

/-- The round-robin clause of AGrantDeliversTheWord where the first channel looked at is quiet, and its
clause where no channel is requesting. -/
theorem witness_grant_passes_over :
    (State.requestingAt { contendingMachine with channels := [Channel.reset, waitingChannel] }
      ((0 + 0) % 2) = false ∧
    State.requestingAt { contendingMachine with channels := [Channel.reset, waitingChannel] }
      ((0 + 1) % 2) = true) ∧
    ∀ c, State.requestingAt { State.resetOf 2 with pending := [.grant] } c = false := by
  refine ⟨by decide +kernel, fun c => ?_⟩
  match c with
  | 0 | 1 | _ + 2 => rfl

/-- AWaitingRequestIsPassedOverFewTimes: channel 1 waits while channel 0 is served. -/
theorem witness_passed_over :
    ∃ t, step contendingMachine = .next t ∧ t.requestingAt 1 = true ∧
      contendingMachine.pending.head? = some .grant :=
  ⟨_, rfl, by decide +kernel, rfl⟩

/-- ConditionsChangeOnlyAsNamed: both invariants together, and a step. -/
theorem witness_conditions :
    waitingMachine.StatusInv ∧ waitingMachine.EngineInv ∧ ∃ t, step waitingMachine = .next t := by
  refine ⟨fun ch h => ?_, witness_engine.1, _, rfl⟩
  rcases List.mem_cons.mp h with rfl | h
  · unfold Channel.StatusInv; decide
  · cases h

/-- AFinishedEngineHoldsTheOutcome: LOG2 of 3.0 run to its end. -/
theorem witness_finished :
    (runEngine .log2 0x30000000000000000 0 21 Hidden.reset.atStart).phase = .finished 0 ∧
    (runEngine .log2 0x30000000000000000 0 21 Hidden.reset.atStart).acc = 0x195C0100000000000 := by
  decide +kernel

/-- AReadOutsideTheTablesFaults: an address of table 7, requested by the granted channel. -/
theorem witness_read_outside :
    State.grantee { waitingMachine with channels :=
      [{ waitingChannel with romPort := .waiting .log2Engine 0xE0 }] } = some 0 ∧
    ∀ w, memRead 0xE0 ≠ .ok w :=
  ⟨by decide +kernel, fun w h => by cases h⟩

/-- AResultPersistsUntilTheNextStart: a done channel and a read of its `RES`. -/
theorem witness_done :
    ((channelOf 3 2 0 true).takeFailure .overflow Hidden.reset).status.done = true ∧
    ((channelOf 3 2 0 true).takeFailure .overflow Hidden.reset).status.busy = false ∧
    ((channelOf 3 2 0 true).takeFailure .overflow Hidden.reset).EngineInv :=
  ⟨rfl, rfl, ⟨fun h => absurd h (by decide), fun h => absurd h (by decide), fun _ => rfl⟩⟩

/-- InputsOfOneChannelLeaveTheOthers, AChannelRunsAsIfAlone, NoOtherFatalConditions: inputs for
channel 0 of two machines that agree on its registers, and a second channel. -/
theorem witness_two_channels :
    (Event.complete 0).onlyChannel = some 0 ∧ (Event.write 2 0).onlyChannel = some 0 ∧
    (1 : Nat) ≠ 0 ∧
    (machineOf 3 2 0 true [.complete 0]).registersAt 0 =
      ({ State.resetOf 1 with channels := [channelOf 3 2 0 true] } : State).registersAt 0 ∧
    (machineOf 3 2 0 true [.complete 0, .write 15 1, .wait 1]).InputsExist := by
  refine ⟨rfl, rfl, by decide, rfl, ?_⟩
  unfold State.InputsExist
  decide

/-- The bounds of the laws: `MulQ` and `divQ` operands at the edges of their domains. -/
theorem witness_laws :
    mulQ 3 0x10000000000000000 = .ok 3 ∧ (191 : Nat) ≤ 191 ∧
    (1 : Word).toNat * 2 ^ 191 < 2 ^ 256 ∧ (1 : Word) ≠ 0 ∧
    (BitVec.ofNat 256 (2 ^ 192 - 1)).toNat < 2 ^ 192 ∧
    mulQ (BitVec.allOnes 256) 0x10000000000000001 = .error (.failure .overflow) ∧
    log2Q 0x30000000000000001 = .ok 0x195C0100000000000 ∧
    (0x100000B1721BCFC99 : Word).toNat / 2 ^ (Nat.log2 (0x100000B1721BCFC99 : Word).toNat - 64) <
      0x100000B1721BCFC9A := by decide +kernel

/-- MultiplyThenDivideLosesLittle: each of its inner clauses. -/
theorem witness_multiply_then_divide :
    mulQ 3 0x18000000000000000 = .ok 4 ∧ (4 : Word).toNat < 2 ^ 192 ∧
    2 ^ 64 ≤ (0x18000000000000000 : Word).toNat ∧ 2 ^ 64 ∣ (2 : Word).toNat * 0x8000000000000000 := by
  refine ⟨by decide +kernel, by decide, by decide, by decide⟩

/-- NoChannelStaysBusyForEver: four steps for one input and two channels. -/
theorem witness_run :
    2 * (machineOf 3 2 0 true [.read 3]).pending.length +
      (machineOf 3 2 0 true [.read 3]).channels.length ≤ 4 ∧
    ∃ t, runSteps 4 (machineOf 3 2 0 true [.read 3]) = .next t :=
  ⟨by decide, _, rfl⟩

end Sys2Proof.Machine.Tests
end

section
/-! PROOFS. The STATUS invariants (spec/10_state.md R17). A predicate on single channels that each
operation on a channel keeps holds of every channel after every step; R17 is one such predicate. -/

namespace Sys2Proof.Machine

/-! ### What the operations on one channel leave or change -/

/-- All that a host write can do to a channel (R180 to R182, R184, R171). -/
theorem Channel.writeReg_cases (ch : Channel) (r : BitVec 3) (v : Word) :
    ch.writeReg r v = ch ∨
    ch.status.busy = false ∧ ch.status.fault = false ∧
      (ch.writeReg r v = { ch with opa := v } ∨ ch.writeReg r v = { ch with opb := v } ∨
        ch.writeReg r v = ch.startCommand (v.setWidth 8)) := by
  unfold Channel.writeReg
  split
  · rename_i ha
    have ⟨hb, hf⟩ : ch.status.busy = false ∧ ch.status.fault = false := by
      simpa [Status.accepts] using ha
    split
    · exact .inr ⟨hb, hf, .inl rfl⟩
    · exact .inr ⟨hb, hf, .inr (.inl rfl)⟩
    · exact .inr ⟨hb, hf, .inr (.inr rfl)⟩
    · exact .inl rfl
  · exact .inl rfl

/-- A hidden iteration changes no register (R18). -/
@[simp] theorem Channel.advance_registers (ch : Channel) : ch.advance.registers = ch.registers := by
  unfold Channel.advance
  split
  · rfl
  · split <;> rfl

/-- A grant faults the channel or leaves its registers (R42, R54). -/
theorem Channel.granted_cases (ch : Channel) (h : Hidden) :
    ch.granted h = ch.takeFault h ∨ (ch.granted h).registers = ch.registers := by
  unfold Channel.granted
  split
  · split
    · exact .inr rfl
    · exact .inl rfl
  · exact .inr rfl
  · exact .inr rfl

/-- The codes of the typed failures are 1 to 4 (R200). -/
theorem Failure.code_toNat_lt (f : Failure) : f.code.toNat < 5 := by
  cases f <;> decide

/-! ### From operations on one channel to steps of the machine -/

/-- Every operation that a step performs on a channel keeps `P`, and a reset channel has it. -/
structure Channel.KeptByOps (P : Channel → Prop) : Prop where
  reset : P Channel.reset
  write : ∀ ch r v, P ch → P (ch.writeReg r v)
  settle : ∀ ch h, ch.status.busy = true → P ch →
    P (ch.settle (byteValue ch.cmd ch.opa ch.opb) h)
  advance : ∀ ch, ch.status.busy = true → P ch → P ch.advance
  granted : ∀ ch h, ch.requesting = true → P ch → P (ch.granted h)

section
variable {P : Channel → Prop} {s t : State} {c : Nat} {ch : Channel}

/-- A channel found at an index has what every channel has. -/
theorem State.forall_channels_at (hs : ∀ x ∈ s.channels, P x) (hc : s.channels[c]? = some ch) :
    P ch :=
  hs ch (List.mem_of_getElem? hc)

/-- Replacing one channel by one with `P` keeps `P` of every channel. -/
theorem State.forall_channels_setChannel (hs : ∀ x ∈ s.channels, P x) (hch : P ch) :
    ∀ x ∈ (s.setChannel c ch).channels, P x := by
  intro x hx
  rcases List.mem_or_eq_of_mem_set hx with hx | rfl
  · exact hs x hx
  · exact hch

theorem State.forall_channels_runChannel (hP : Channel.KeptByOps P) (hs : ∀ x ∈ s.channels, P x)
    (h : s.runChannel c = .next t) : ∀ x ∈ t.channels, P x := by
  obtain ⟨ch, hc, ⟨_, rfl⟩ | ⟨hb, rfl⟩⟩ := State.runChannel_next h
  · exact hs
  · exact State.forall_channels_setChannel hs
      (hP.settle ch _ hb (State.forall_channels_at hs hc))

theorem State.forall_channels_takeEvent (hP : Channel.KeptByOps P) (hs : ∀ x ∈ s.channels, P x)
    (e : Event) (h : s.takeEvent e = .next t) : ∀ x ∈ t.channels, P x := by
  cases e with
  | write index v =>
    obtain ⟨ch, hc, rfl⟩ := State.hostWrite_next h
    exact State.forall_channels_setChannel hs (hP.write ch _ v (State.forall_channels_at hs hc))
  | read index =>
    obtain ⟨ch, _, rfl⟩ := State.hostRead_next h
    exact hs
  | wait c =>
    obtain ⟨ch, _, ⟨_, rfl⟩ | ⟨_, d, hd, _⟩ | ⟨_, _, _, rfl⟩⟩ := State.waitFor_next h
    · exact hs
    · exact State.forall_channels_runChannel (s := { s with pending := .wait c :: s.pending })
        hP hs hd
    · exact hs
  | complete c => exact State.forall_channels_runChannel hP hs h
  | advance c =>
    obtain ⟨ch, hc, ⟨_, rfl⟩ | ⟨hb, rfl⟩⟩ := State.advance_next h
    · exact hs
    · exact State.forall_channels_setChannel hs (hP.advance ch hb (State.forall_channels_at hs hc))
  | grant =>
    rcases State.grantOne_next h with ⟨_, rfl⟩ | ⟨c, ch, _, hc, hr, rfl⟩
    · exact hs
    · exact State.forall_channels_setChannel hs
        (hP.granted ch _ hr (State.forall_channels_at hs hc))
  | reset =>
    injection h with h
    subst h
    intro x hx
    obtain ⟨_, _, rfl⟩ := List.mem_map.mp hx
    exact hP.reset

/-- What every operation on a channel keeps, every step keeps of all channels. -/
theorem forall_channels_step (hP : Channel.KeptByOps P) (hs : ∀ x ∈ s.channels, P x)
    (h : step s = .next t) : ∀ x ∈ t.channels, P x := by
  rcases step_next h with ⟨_, _, rfl⟩ | ⟨_, c, _, h⟩ | ⟨e, rest, _, h⟩
  · exact hs
  · exact State.forall_channels_runChannel hP hs h
  · exact State.forall_channels_takeEvent (s := { s with pending := rest }) hP hs e h

end

/-! ### The STATUS invariant and the operations on one channel -/

theorem Channel.statusInv_reset : Channel.reset.StatusInv := by
  unfold Channel.StatusInv; decide

/-- The invariant speaks of the registers only. -/
theorem Channel.StatusInv.of_registers_eq {ch ch' : Channel} (hch : ch.StatusInv)
    (h : ch'.registers = ch.registers) : ch'.StatusInv := by
  have hres : ch'.res = ch.res := congrArg Registers.res h
  have hstatus : ch'.status = ch.status := congrArg Registers.status h
  simpa only [Channel.StatusInv, hres, hstatus] using hch

/-- A busy channel has not faulted, by (e). -/
theorem Channel.StatusInv.fault_of_busy {ch : Channel} (hch : ch.StatusInv)
    (hb : ch.status.busy = true) : ch.status.fault = false := by
  obtain ⟨_, _, _, _, hfault, _⟩ := hch
  rcases hf : ch.status.fault with _ | _
  · rfl
  · rw [(hfault hf).1] at hb
    cases hb

theorem Channel.statusInv_startCommand {ch : Channel} (c : Byte) (hf : ch.status.fault = false) :
    (ch.startCommand c).StatusInv := by
  simp [Channel.StatusInv, hf]

theorem Channel.statusInv_succeed {ch : Channel} (v : Word) (h : Hidden)
    (hf : ch.status.fault = false) : (ch.succeed v h).StatusInv := by
  simp [Channel.StatusInv, hf]

theorem Channel.statusInv_takeFailure {ch : Channel} (f : Failure) (h : Hidden)
    (hf : ch.status.fault = false) : (ch.takeFailure f h).StatusInv := by
  simp [Channel.StatusInv, hf, f.code_toNat_lt]

theorem Channel.statusInv_takeFault (ch : Channel) (h : Hidden) : (ch.takeFault h).StatusInv := by
  simp [Channel.StatusInv]

theorem Channel.StatusInv.writeReg {ch : Channel} (hch : ch.StatusInv) (r : BitVec 3) (v : Word) :
    (ch.writeReg r v).StatusInv := by
  rcases ch.writeReg_cases r v with h | ⟨_, hf, h | h | h⟩ <;> rw [h]
  · exact hch
  · exact hch
  · exact hch
  · exact Channel.statusInv_startCommand _ hf

theorem Channel.StatusInv.settle {ch : Channel} (hch : ch.StatusInv) (hb : ch.status.busy = true)
    (r : Except Abort Word) (h : Hidden) : (ch.settle r h).StatusInv := by
  have hf := hch.fault_of_busy hb
  rcases r with (f | _) | v
  · exact Channel.statusInv_takeFailure f h hf
  · exact ch.statusInv_takeFault h
  · exact Channel.statusInv_succeed v h hf

theorem Channel.StatusInv.granted {ch : Channel} (hch : ch.StatusInv) (h : Hidden) :
    (ch.granted h).StatusInv := by
  rcases ch.granted_cases h with heq | hregs
  · rw [heq]
    exact ch.statusInv_takeFault h
  · exact hch.of_registers_eq hregs

theorem Channel.statusInv_keptByOps : Channel.KeptByOps Channel.StatusInv where
  reset := Channel.statusInv_reset
  write _ r v hch := hch.writeReg r v
  settle _ h hb hch := hch.settle hb _ h
  advance ch _ hch := hch.of_registers_eq ch.advance_registers
  granted _ h _ hch := hch.granted h

theorem State.statusInv_resetOf (n : Nat) : (State.resetOf n).StatusInv := by
  intro ch hch
  rw [List.eq_of_mem_replicate hch]
  exact Channel.statusInv_reset

/-- Settles O29: reset channels meet R17, and each operation on a channel keeps it. -/
theorem everyStepKeepsTheStatusInvariant : Obligations.EveryStepKeepsTheStatusInvariant :=
  ⟨State.statusInv_resetOf, fun _ _ hs h => forall_channels_step Channel.statusInv_keptByOps hs h⟩

end Sys2Proof.Machine
end

section
/-! PROOFS. The facts about the ROM content (spec/20_memory.md R53). A table's facts are a range for its
entries and an order of neighbours; a folded product is the fraction loop on a fraction of ones. -/

namespace Sys2Proof.Machine

/-! ### Ranges and orders of the tables -/

theorem log2T_range :
    ∀ i < 20, 2 ^ 64 < (log2T.getD i 0).toNat ∧ (log2T.getD i 0).toNat < 2 ^ 65 := by
  decide +kernel
theorem invLog2T_range :
    ∀ i < 20, 2 ^ 63 < (invLog2T.getD i 0).toNat ∧ (invLog2T.getD i 0).toNat < 2 ^ 64 := by
  decide +kernel
theorem expNegT_range :
    ∀ i < 20, 2 ^ 64 < (expNegT.getD i 0).toNat ∧ (expNegT.getD i 0).toNat < 2 ^ 65 := by
  decide +kernel
theorem invExpNegT_range :
    ∀ i < 20, 2 ^ 63 < (invExpNegT.getD i 0).toNat ∧ (invExpNegT.getD i 0).toNat < 2 ^ 64 := by
  decide +kernel

theorem log2T_decreasing :
    ∀ i < 19, (log2T.getD (i + 1) 0).toNat < (log2T.getD i 0).toNat := by
  decide +kernel
theorem invLog2T_increasing :
    ∀ i < 19, (invLog2T.getD i 0).toNat < (invLog2T.getD (i + 1) 0).toNat := by
  decide +kernel
theorem expNegT_decreasing :
    ∀ i < 19, (expNegT.getD (i + 1) 0).toNat < (expNegT.getD i 0).toNat := by
  decide +kernel
theorem invExpNegT_increasing :
    ∀ i < 19, (invExpNegT.getD i 0).toNat < (invExpNegT.getD (i + 1) 0).toNat := by
  decide +kernel

/-! ### Folded products -/

/-- Every fractional bit of the fraction of ones is set. -/
theorem fracBit_allOnes (i : Nat) : fracBit (BitVec.allOnes 64) i = true := by
  simp only [fracBit, BitVec.getLsbD_allOnes, decide_eq_true_eq]
  omega

/-- On the fraction of ones the loop multiplies in the rest of the table, entry by entry (R134, R152). -/
theorem fracLoop_allOnes {t : Table} (hlen : (romTable t).length ≤ 32) :
    ∀ n i r, i + n = (romTable t).length →
      fracLoop t (BitVec.allOnes 64) n i r = ((romTable t).drop i).foldlM mulQ r
  | 0, i, r, h => by
    rw [List.drop_eq_nil_of_le (by omega)]
    rfl
  | n + 1, i, r, h => by
    have hi : i < (romTable t).length := by omega
    have hrec := fun r' => fracLoop_allOnes hlen n (i + 1) r' (by omega)
    simp only [fracLoop, fracBit_allOnes, if_true, rom_of_lt hi (by omega),
      List.getD_eq_getElem _ _ hi, List.drop_eq_getElem_cons hi, List.foldlM_cons, hrec]
    rfl

/-- Folding the whole of a table of 20 words into `ONE` is the loop over all twenty fractional bits. -/
theorem fracLoop_allOnes_eq_fold {t : Table} (hlen : (romTable t).length = 20) :
    fracLoop t (BitVec.allOnes 64) 20 0 oneQ = (romTable t).foldlM mulQ oneQ :=
  fracLoop_allOnes (by omega) 20 0 oneQ (by omega)

theorem log2T_fold : log2T.foldlM mulQ oneQ = .ok 0x1FFFFE9D1BD7C04B1 := by decide +kernel
theorem expNegT_fold : expNegT.foldlM mulQ oneQ = .ok 0x2B7E125E47732F252 := by decide +kernel

/-- `LOG2T[0]` squared, shifted right by 64, is 2.0 exactly: the square root of 2 is rounded up. -/
theorem mulQ_log2T_zero_self :
    mulQ (log2T.getD 0 0) (log2T.getD 0 0) = .ok (BitVec.ofNat 256 (2 ^ 65)) :=
  mulQ_of_fits (by decide)

/-- Settles O49: (a) to (d) from each table's range and order, (e) from the folds, (f) and (g) by
evaluation. -/
theorem theRomContentHasItsFacts : Obligations.TheRomContentHasItsFacts :=
  ⟨fun i hi => and_assoc.mp ⟨log2T_range i hi, log2T_decreasing i⟩,
    fun i hi => and_assoc.mp ⟨invLog2T_range i hi, invLog2T_increasing i⟩,
    fun i hi => and_assoc.mp ⟨expNegT_range i hi, expNegT_decreasing i⟩,
    fun i hi => and_assoc.mp ⟨invExpNegT_range i hi, invExpNegT_increasing i⟩,
    (fracLoop_allOnes_eq_fold (t := tblLog2) log2T_length).trans log2T_fold,
    (fracLoop_allOnes_eq_fold (t := tblExpNeg) expNegT_length).trans expNegT_fold,
    mulQ_log2T_zero_self, by decide⟩

end Sys2Proof.Machine
end

section
/-! PROOFS. The command byte (spec/30_encoding.md R70 to R75): which bytes the decoder rejects, by
their fields and by their value, and what a rejected byte does when it is started and completes. -/

namespace Sys2Proof

/-! ### Which bytes are commands -/

/-- The opcode map has no entry exactly above 9 (R71, R73). -/
theorem opcodeOf_eq_none_iff (op : BitVec 4) : opcodeOf op = none ↔ 9 < op.toNat := by
  revert op
  decide

/-- A byte is `RSV` above `OP` (R70). -/
theorem byte_toNat_eq_fields (b : Byte) :
    b.toNat = 16 * (Command.ofByte b).rsv.toNat + (Command.ofByte b).op.toNat := by
  have hb : b.toNat < 256 := b.isLt
  simp only [Command.ofByte, BitVec.extractLsb'_toNat, Nat.shiftRight_eq_div_pow]
  omega

/-- The decoder rejects a byte exactly when `RSV` is not 0 or `OP` is above 9 (R73, R74). -/
theorem decode_rejects_iff (b : Byte) :
    (∃ e, decode b = .error e) ↔ b.extractLsb' 4 4 ≠ 0 ∨ 9 < (b.extractLsb' 0 4).toNat := by
  rw [← opcodeOf_eq_none_iff]
  by_cases hr : b.extractLsb' 4 4 = 0#4
  · rcases ho : opcodeOf (b.extractLsb' 0 4) with _ | i <;>
      simp [decode, Command.ofByte, Command.reservedClear, hr, ho]
  · simp [decode, Command.ofByte, Command.reservedClear, hr]

/-- The fields of a byte above 9 are those of no command (R75). -/
theorem illegalFields_of_lt {b : Byte} (h : 9 < b.toNat) :
    b.extractLsb' 4 4 ≠ 0 ∨ 9 < (b.extractLsb' 0 4).toNat := by
  by_cases hr : b.extractLsb' 4 4 = 0#4
  · have hsplit := byte_toNat_eq_fields b
    simp only [Command.ofByte, hr, BitVec.toNat_zero] at hsplit
    exact .inr (by omega)
  · exact .inl hr

/-- Decoding inverts encoding (R71). -/
theorem decode_encode (i : Instr) : decode (encode i) = .ok i := by
  cases i <;> rfl

/-- Settles O1: each listed byte is the encoding of its command, and a byte above 9 has the fields
of no command. -/
theorem exactlyTenBytesAreCommands : Obligations.ExactlyTenBytesAreCommands :=
  ⟨decode_encode .mul, decode_encode .div, decode_encode .log2, decode_encode .ln,
    decode_encode .pow2, decode_encode .invPow2, decode_encode .exp, decode_encode .invExp,
    decode_encode .pow, decode_encode .invPow,
    fun b h => (decode_rejects_iff b).mpr (illegalFields_of_lt h)⟩

end Sys2Proof

namespace Sys2Proof.Machine

/-! ### A completion with a failure -/

/-- A rejected byte evaluates to `IllegalCommand`, whatever the operands (R204). -/
theorem byteValue_of_rejected {c : Byte} (h : ∃ e, decode c = .error e) (a b : Word) :
    byteValue c a b = .error (.failure .illegalCommand) := by
  obtain ⟨e, he⟩ := h
  simp only [byteValue, he]

section
variable {s t : State} {c : Nat} {ch : Channel}

/-- The sequencer's turn on a busy channel settles it with the value of its byte (R172, R173). -/
theorem State.runChannel_of_busy (hc : s.channels[c]? = some ch) (hb : ch.status.busy = true) :
    s.runChannel c =
      .next { s.setChannel c (ch.settle (byteValue ch.cmd ch.opa ch.opb) s.freshHidden) with
              active := c, freeIndex := s.freeIndex + 1 } := by
  simp only [State.runChannel, hc, hb, if_true]
  rw [State.runByte_eq_complete, State.complete_of_busy (ch := ch) _ hc hb]
  rfl

/-- A replaced channel is found at its index. -/
theorem State.setChannel_getElem?_self (hc : s.channels[c]? = some ch) (ch' : Channel) :
    (s.setChannel c ch').channels[c]? = some ch' :=
  List.getElem?_set_self (List.getElem?_eq_some_iff.mp hc).1

/-- Replacing a channel leaves the others (R10). -/
theorem State.setChannel_getElem?_ne {d : Nat} (hd : d ≠ c) (ch' : Channel) :
    (s.setChannel c ch').channels[d]? = s.channels[d]? :=
  List.getElem?_set_ne hd.symm

/-- A busy channel whose byte evaluates to a failure completes with its code and `RES` 0, and with
the frame of every completion (R172, R205). -/
theorem State.runChannel_completes_failure {f : Failure} (hc : s.channels[c]? = some ch)
    (hb : ch.status.busy = true) (hv : byteValue ch.cmd ch.opa ch.opb = .error (.failure f)) :
    ∃ t, s.runChannel c = .next t ∧ State.Completes { s with active := c } t f.code 0 := by
  refine ⟨_, State.runChannel_of_busy hc hb, ch, ch.takeFailure f s.freshHidden, hc, ?_,
    rfl, rfl, rfl, rfl, rfl, fun d hd => State.setChannel_getElem?_ne hd _, rfl, rfl, rfl, rfl⟩
  rw [hv]
  exact State.setChannel_getElem?_self hc _

/-- The registers of the channel that completed. -/
theorem State.Completes.registersAt {e : BitVec 3} {v : Word} (h : s.Completes t e v)
    (hc : s.channels[s.active]? = some ch) :
    t.registersAt s.active = some
      { opa := ch.opa, opb := ch.opb, cmd := ch.cmd, res := v,
        status := { busy := false, done := true, err := e, fault := ch.status.fault } } := by
  obtain ⟨ch₀, ch', hc₀, hc', hopa, hopb, hcmd, hres, hstatus, _⟩ := h
  obtain rfl : ch₀ = ch := Option.some.inj (hc₀.symm.trans hc)
  simp [State.registersAt, hc', Channel.registers, hopa, hopb, hcmd, hres, hstatus]

/-- What a completion leaves of the other channels and of the inputs. -/
theorem State.Completes.others_and_pending {e : BitVec 3} {v : Word} (h : s.Completes t e v) :
    (∀ d, d ≠ s.active → t.channels[d]? = s.channels[d]?) ∧ t.pending = s.pending := by
  obtain ⟨_, _, _, _, _, _, _, _, _, hothers, _, _, hpending, _⟩ := h
  exact ⟨hothers, hpending⟩

/-! ### Starting and completing a byte -/

/-- A host write of `CMD` to a channel that accepts it starts the command (R171, R180). -/
theorem step_write_cmd {v : Word} {rest : List Event}
    (hp : s.pending = .write (8 * c + 2) v :: rest) (hc : s.channels[c]? = some ch)
    (hb : ch.status.busy = false) (hf : ch.status.fault = false) :
    step s = .next (State.setChannel { s with pending := rest } c
      (ch.startCommand (v.setWidth 8))) := by
  obtain ⟨hi, hr⟩ : indexChannel (8 * c + 2) = c ∧ indexReg (8 * c + 2) = regCMD :=
    index_of_register c regCMD
  have hw : ch.writeReg regCMD v = ch.startCommand (v.setWidth 8) := by
    simp [Channel.writeReg, Status.accepts, hb, hf, regCMD]
  simp only [step_of_event hp, State.takeEvent, State.hostWrite, hi, hr, hc, hw]

/-- A busy channel whose byte has the fields of no command completes with `IllegalCommand`
(R73, R74). -/
theorem step_completes_illegal {rest : List Event} (hp : s.pending = .complete c :: rest)
    (hc : s.channels[c]? = some ch) (hb : ch.status.busy = true)
    (hill : ch.cmd.extractLsb' 4 4 ≠ 0 ∨ 9 < (ch.cmd.extractLsb' 0 4).toNat) :
    ∃ t, step s = .next t ∧ State.Completes { s with pending := rest, active := c } t 4 0 := by
  have hv := byteValue_of_rejected ((decode_rejects_iff ch.cmd).mpr hill) ch.opa ch.opb
  rw [step_of_event hp]
  exact State.runChannel_completes_failure (s := { s with pending := rest }) hc hb hv

end

/-- Settles O5: the decoder rejects such a byte, so its completion takes the failure; a write of it
to `CMD` leads to a state in which that completion is next. -/
theorem illegalBytesCompleteAsIllegalCommand :
    Obligations.IllegalBytesCompleteAsIllegalCommand := by
  refine ⟨fun s c ch rest => step_completes_illegal, fun s c ch v rest hp hc hb hf hill => ?_⟩
  have hstart := step_write_cmd hp hc hb hf
  have hstarted := State.setChannel_getElem?_self
    (s := { s with pending := .complete c :: rest }) hc (ch.startCommand (v.setWidth 8))
  have hill' : (v.setWidth 8).extractLsb' 4 4 ≠ 0 ∨
      9 < ((v.setWidth 8).extractLsb' 0 4).toNat := by
    rwa [BitVec.extractLsb'_setWidth_of_le (by decide),
      BitVec.extractLsb'_setWidth_of_le (by decide)]
  obtain ⟨t, ht, hcompletes⟩ := step_completes_illegal rfl hstarted rfl hill'
  obtain ⟨hothers, hpending⟩ := hcompletes.others_and_pending
  refine ⟨t, by simp only [runSteps, hstart, ht], hpending, ?_, fun d hd => ?_⟩
  · rw [hcompletes.registersAt hstarted]
    simp [hf, BitVec.setWidth_eq_extractLsb']
  · exact (hothers d hd).trans (State.setChannel_getElem?_ne hd _)

end Sys2Proof.Machine
end

section
/-! PROOFS. Exact multiply and divide (spec/40_core_arith.md R90 to R100). A command completes with what
its evaluation answers; `mulQ` and `divQ` answer a value exactly when it is the floor of the exact
result and lies in their range, so each law of theirs is a fact about division of natural numbers. -/

namespace Sys2Proof.Machine

/-! ### A command completes with what its evaluation answers -/

section
variable {s : State} {a b : Word} {i : Instr}

/-- A running command settles its channel and leaves everything else (R172, R205). -/
theorem exec_completes {r : Except Abort Word} {e : BitVec 3} {v : Word} (hrun : s.Running a b)
    (hr : commandValue i a b = r)
    (hsettle : ∀ ch h, (Channel.settle ch r h).res = v ∧
      (Channel.settle ch r h).status = ch.status.completed e) :
    ∃ t, exec i s = .next t ∧ s.Completes t e v := by
  obtain ⟨ch, hc, hb, rfl, rfl⟩ := hrun
  obtain ⟨hres, hstatus⟩ := hsettle ch s.freshHidden
  obtain ⟨hopa, hopb, hcmd, _⟩ := ch.settle_keeps r s.freshHidden
  rw [exec_eq_complete, State.complete_of_busy _ hc hb, hr]
  exact ⟨_, rfl, ch, _, hc, State.setChannel_getElem?_self hc _, hopa, hopb, hcmd, hres, hstatus,
    fun d hd => State.setChannel_getElem?_ne hd _, rfl, rfl, rfl, rfl⟩

/-- A command whose evaluation answers a value completes with it and code 0 (R172). -/
theorem exec_completes_ok {v : Word} (hrun : s.Running a b) (hv : commandValue i a b = .ok v) :
    ∃ t, exec i s = .next t ∧ s.Completes t 0 v :=
  exec_completes hrun hv fun _ _ => ⟨rfl, rfl⟩

/-- A command whose evaluation fails completes with the failure's code and `RES` 0 (R205). -/
theorem exec_completes_failure {f : Failure} (hrun : s.Running a b)
    (hv : commandValue i a b = .error (.failure f)) :
    ∃ t, exec i s = .next t ∧ s.Completes t f.code 0 :=
  exec_completes hrun hv fun _ _ => ⟨rfl, rfl⟩

end

/-! ### What the two operations answer -/

section
variable {a b v : Word}

/-- A multiplication answers the words that are the shifted product (R91). -/
theorem mulQ_eq_ok_iff : mulQ a b = .ok v ↔ v.toNat = a.toNat * b.toNat / 2 ^ 64 := by
  refine ⟨mulQ_ok, fun hv => ?_⟩
  rw [mulQ_of_fits (hv ▸ v.isLt), ← hv, BitVec.ofNat_toNat, BitVec.setWidth_eq]

/-- A multiplication overflows exactly from a product of `2^320` on (R90). -/
theorem mulQ_eq_overflow_iff :
    mulQ a b = .error (.failure .overflow) ↔ 2 ^ 320 ≤ a.toNat * b.toNat := by
  refine ⟨fun h => ?_, fun h => mulQ_of_overflow (by omega)⟩
  by_contra hlt
  rw [mulQ_of_fits (by omega)] at h
  cases h

/-- A zero divisor is refused before the dividend is looked at (R97). -/
theorem divQ_of_zero (a : Word) : divQ a 0 = .error (.failure .divisionByZero) := rfl

/-- A dividend from `2^192` on is refused (R96). -/
theorem divQ_of_overflow (hb : b ≠ 0) (ha : 2 ^ 192 ≤ a.toNat) :
    divQ a b = .error (.failure .overflow) := by
  simp only [divQ, (BitVec.toNat_pos_of_ne_zero hb).ne', ha, if_true, if_false]

/-- On the domain the quotient fits, so the third failure test of `divQ` is dead (R98). -/
theorem quotient_lt_of_dividend_lt (b : Word) (ha : a.toNat < 2 ^ 192) :
    a.toNat * 2 ^ 64 / b.toNat < 2 ^ 256 :=
  calc a.toNat * 2 ^ 64 / b.toNat ≤ a.toNat * 2 ^ 64 := Nat.div_le_self ..
    _ < 2 ^ 256 := by omega

/-- A division inside the domain answers the floored quotient (R96). -/
theorem divQ_eq_ok (hb : b ≠ 0) (ha : a.toNat < 2 ^ 192) :
    divQ a b = .ok (BitVec.ofNat 256 (a.toNat * 2 ^ 64 / b.toNat)) :=
  divQ_of_domain (BitVec.toNat_pos_of_ne_zero hb).ne' ha (quotient_lt_of_dividend_lt b ha)

/-- A division answers the words that are the floored quotient, on the domain only (R96, R97). -/
theorem divQ_eq_ok_iff :
    divQ a b = .ok v ↔
      b ≠ 0 ∧ a.toNat < 2 ^ 192 ∧ v.toNat = a.toNat * 2 ^ 64 / b.toNat := by
  constructor
  · intro h
    have hb : b ≠ 0 := by
      rintro rfl
      rw [divQ_of_zero] at h
      cases h
    have ha : a.toNat < 2 ^ 192 := by
      by_contra hge
      rw [divQ_of_overflow hb (by omega)] at h
      cases h
    rw [divQ_eq_ok hb ha] at h
    injection h with h
    rw [← h, BitVec.toNat_ofNat, Nat.mod_eq_of_lt (quotient_lt_of_dividend_lt b ha)]
    exact ⟨hb, ha, rfl⟩
  · rintro ⟨hb, ha, hv⟩
    rw [divQ_eq_ok hb ha, ← hv, BitVec.ofNat_toNat, BitVec.setWidth_eq]

/-- The value of a division that succeeds, and its positive divisor (R96). -/
theorem divQ_ok (h : divQ a b = .ok v) :
    0 < b.toNat ∧ v.toNat = a.toNat * 2 ^ 64 / b.toNat := by
  obtain ⟨hb, _, hv⟩ := divQ_eq_ok_iff.mp h
  exact ⟨BitVec.toNat_pos_of_ne_zero hb, hv⟩

end

/-! ### The commands `MUL` and `DIV` -/

/-- Settles O7: below `2^320` the shifted product fits, from there on it does not. -/
theorem mulCompletesWithFlooredProduct : Obligations.MulCompletesWithFlooredProduct := by
  refine ⟨rfl, fun s a b hrun => ?_⟩
  by_cases hlt : a.toNat * b.toNat < 2 ^ 320
  · simp only [hlt, if_true]
    exact exec_completes_ok hrun (mulQ_of_fits (by omega))
  · simp only [hlt, if_false]
    exact exec_completes_failure (i := .mul) hrun (mulQ_eq_overflow_iff.mpr (Nat.not_lt.mp hlt))

/-- Settles O8: the two refusals in their order, then the quotient, which always fits. -/
theorem divCompletesWithFlooredQuotient : Obligations.DivCompletesWithFlooredQuotient := by
  refine ⟨rfl, fun s a b hrun => ?_⟩
  by_cases hb : b = 0
  · subst hb
    simp only [if_true]
    exact exec_completes_failure (i := .div) hrun (divQ_of_zero a)
  · by_cases ha : 2 ^ 192 ≤ a.toNat
    · simp only [hb, ha, if_true, if_false]
      exact exec_completes_failure (i := .div) hrun (divQ_of_overflow hb ha)
    · simp only [hb, ha, if_false]
      exact exec_completes_ok hrun (divQ_eq_ok hb (Nat.not_le.mp ha))

/-! ### The laws of `mulQ` -/

section
variable {a a' b v v' : Word}

/-- The encoding of a power of two (R1). -/
theorem toNat_ofNat_two_pow {n : Nat} (hn : n ≤ 255) : (BitVec.ofNat 256 (2 ^ n)).toNat = 2 ^ n := by
  rw [BitVec.toNat_ofNat, Nat.mod_eq_of_lt (Nat.pow_lt_pow_right (by decide) (by omega))]

/-- R93 (a). -/
theorem mulQ_comm (a b : Word) : mulQ a b = mulQ b a := by
  simp only [mulQ, Nat.mul_comm]

/-- R93 (b). -/
theorem mulQ_zero (a : Word) : mulQ a 0 = .ok 0 :=
  mulQ_eq_ok_iff.mpr (by simp)

/-- R93 (d). -/
theorem mulQ_two_pow {k : Nat} (hk : k ≤ 191) (hfits : a.toNat * 2 ^ k < 2 ^ 256) :
    mulQ a (BitVec.ofNat 256 (2 ^ (64 + k))) = .ok (a <<< k) := by
  rw [mulQ_eq_ok_iff, toNat_ofNat_two_pow (by omega), BitVec.toNat_shiftLeft, Nat.shiftLeft_eq,
    Nat.mod_eq_of_lt hfits, Nat.pow_add, Nat.mul_left_comm,
    Nat.mul_div_cancel_left _ (Nat.two_pow_pos 64)]

/-- R93 (c): the power of two with nothing to shift. -/
theorem mulQ_one (a : Word) : mulQ a (BitVec.ofNat 256 (2 ^ 64)) = .ok a := by
  simpa using mulQ_two_pow (a := a) (k := 0) (by decide) (by simpa using a.isLt)

/-- R93 (e), the values. -/
theorem mulQ_monotone (ha : a.toNat ≤ a'.toNat) (h : mulQ a b = .ok v) (h' : mulQ a' b = .ok v') :
    v.toNat ≤ v'.toNat := by
  rw [mulQ_ok h, mulQ_ok h']
  exact Nat.div_le_div_right (Nat.mul_le_mul_right _ ha)

/-- R93 (e), the overflow. -/
theorem mulQ_overflow_monotone (ha : a.toNat ≤ a'.toNat)
    (h : mulQ a b = .error (.failure .overflow)) : mulQ a' b = .error (.failure .overflow) :=
  mulQ_eq_overflow_iff.mpr
    ((mulQ_eq_overflow_iff.mp h).trans (Nat.mul_le_mul_right _ ha))

/-- R93 (f): the product loses less than one unit in the last place, downward. -/
theorem mulQ_error (h : mulQ a b = .ok v) :
    v.toNat * 2 ^ 64 ≤ a.toNat * b.toNat ∧ a.toNat * b.toNat < v.toNat * 2 ^ 64 + 2 ^ 64 := by
  rw [mulQ_ok h]
  exact ⟨Nat.div_mul_le_self .., Nat.lt_div_mul_add (Nat.two_pow_pos 64)⟩

/-- A multiplication that discards no bits gives the exact product (R100 (c)). -/
theorem mulQ_exact (h : mulQ a b = .ok v) (hdvd : 2 ^ 64 ∣ a.toNat * b.toNat) :
    v.toNat * 2 ^ 64 = a.toNat * b.toNat := by
  rw [mulQ_ok h, Nat.div_mul_cancel hdvd]

end

/-- R93 (g): 2^64 times the smallest word is 1.0, but the smallest word squared is 0. -/
theorem mulQ_not_associative :
    ∃ a b c x y u v, mulQ a b = .ok x ∧ mulQ x c = .ok u ∧ mulQ b c = .ok y ∧ mulQ a y = .ok v ∧
      u ≠ v :=
  ⟨BitVec.ofNat 256 (2 ^ 128), 1, 1, oneQ, 0, 1, 0, mulQ_eq_ok_iff.mpr (by decide),
    mulQ_eq_ok_iff.mpr (by decide), mulQ_eq_ok_iff.mpr (by decide), mulQ_zero _, by decide⟩

/-- Settles O50: one lemma per law. -/
theorem multiplyObeysItsLaws : Obligations.MultiplyObeysItsLaws :=
  ⟨mulQ_comm, mulQ_zero, mulQ_one, fun _ _ => mulQ_two_pow, fun _ _ _ _ _ => mulQ_monotone,
    fun _ _ _ => mulQ_overflow_monotone, fun _ _ _ => mulQ_error, mulQ_not_associative⟩

/-! ### The laws of `divQ` -/

section
variable {a a' b b' v v' : Word}

/-- R99 (a). -/
theorem divQ_zero_left (hb : b ≠ 0) : divQ 0 b = .ok 0 :=
  divQ_eq_ok_iff.mpr ⟨hb, by decide, by simp⟩

/-- R99 (d). -/
theorem divQ_two_pow {k : Nat} (ha : a.toNat < 2 ^ 192) (hk : k ≤ 191) :
    divQ a (BitVec.ofNat 256 (2 ^ (64 + k))) = .ok (a >>> k) := by
  have hpow := toNat_ofNat_two_pow (n := 64 + k) (by omega)
  refine divQ_eq_ok_iff.mpr ⟨fun h0 => ?_, ha, ?_⟩
  · rw [h0] at hpow
    exact (Nat.two_pow_pos (64 + k)).ne hpow
  · rw [hpow, BitVec.toNat_ushiftRight, Nat.shiftRight_eq_div_pow, Nat.pow_add, Nat.mul_comm,
      Nat.mul_div_mul_left _ _ (Nat.two_pow_pos 64)]

/-- R99 (b): the power of two with nothing to shift. -/
theorem divQ_one (ha : a.toNat < 2 ^ 192) : divQ a (BitVec.ofNat 256 (2 ^ 64)) = .ok a := by
  simpa using divQ_two_pow (k := 0) ha (by decide)

/-- R99 (c). -/
theorem divQ_self (h0 : a ≠ 0) (ha : a.toNat < 2 ^ 192) :
    divQ a a = .ok (BitVec.ofNat 256 (2 ^ 64)) := by
  refine divQ_eq_ok_iff.mpr ⟨h0, ha, ?_⟩
  rw [toNat_ofNat_two_pow (by decide), Nat.mul_div_cancel_left _ (BitVec.toNat_pos_of_ne_zero h0)]

/-- R99 (e), the dividend. -/
theorem divQ_monotone (ha : a.toNat ≤ a'.toNat) (h : divQ a b = .ok v) (h' : divQ a' b = .ok v') :
    v.toNat ≤ v'.toNat := by
  rw [(divQ_ok h).2, (divQ_ok h').2]
  exact Nat.div_le_div_right (Nat.mul_le_mul_right _ ha)

/-- R99 (e), the divisor. -/
theorem divQ_antitone (hb : b.toNat ≤ b'.toNat) (h : divQ a b = .ok v) (h' : divQ a b' = .ok v') :
    v'.toNat ≤ v.toNat := by
  obtain ⟨hpos, hv⟩ := divQ_ok h
  obtain ⟨_, hv'⟩ := divQ_ok h'
  rw [hv, hv']
  exact Nat.div_le_div_left hb hpos

/-- R99 (f): the quotient loses less than one unit in the last place, downward. -/
theorem divQ_error (h : divQ a b = .ok v) :
    v.toNat * b.toNat ≤ a.toNat * 2 ^ 64 ∧ a.toNat * 2 ^ 64 < v.toNat * b.toNat + b.toNat := by
  obtain ⟨hpos, hv⟩ := divQ_ok h
  rw [hv]
  exact ⟨Nat.div_mul_le_self .., Nat.lt_div_mul_add hpos⟩

/-- R99 (g). -/
theorem divQ_value_eq_zero_iff (h : divQ a b = .ok v) : v = 0 ↔ a.toNat * 2 ^ 64 < b.toNat := by
  obtain ⟨hpos, hv⟩ := divQ_ok h
  rw [← Nat.div_eq_zero_iff_lt hpos, ← hv]
  exact BitVec.toNat_inj.symm

end

/-- Settles O51: one lemma per law, the last two for the value that a division on the domain has. -/
theorem divideObeysItsLaws : Obligations.DivideObeysItsLaws := fun _ _ hb ha =>
  have hv := divQ_eq_ok hb ha
  ⟨divQ_zero_left hb, divQ_one ha, fun h0 => divQ_self h0 ha, fun _ => divQ_two_pow ha,
    fun _ _ _ => divQ_monotone, fun _ _ _ => divQ_antitone, _, hv, and_assoc.mp
      ⟨divQ_error hv, divQ_value_eq_zero_iff hv⟩⟩

/-! ### Multiply, then divide -/

section
variable {a b m d : Word}

/-- R100 (a): both roundings are downward. -/
theorem divQ_mulQ_le (hm : mulQ a b = .ok m) (hd : divQ m b = .ok d) : d.toNat ≤ a.toNat := by
  obtain ⟨hpos, _⟩ := divQ_ok hd
  exact Nat.le_of_mul_le_mul_right ((divQ_error hd).1.trans (mulQ_error hm).1) hpos

/-- R100 (b): the multiply loses at most `2^64 - 1` of the product, the divide at most `b - 1`. -/
theorem divQ_mulQ_loss_le (hm : mulQ a b = .ok m) (hd : divQ m b = .ok d) :
    a.toNat - d.toNat ≤ (2 ^ 64 - 1 + b.toNat - 1) / b.toNat := by
  obtain ⟨hpos, _⟩ := divQ_ok hd
  obtain ⟨_, hmul⟩ := mulQ_error hm
  obtain ⟨_, hdiv⟩ := divQ_error hd
  rw [Nat.le_div_iff_mul_le hpos, Nat.sub_mul]
  omega

/-- R100 (b), a multiplier of 1.0 or more: the bound is then at most 1. -/
theorem divQ_mulQ_loss_le_one (hm : mulQ a b = .ok m) (hd : divQ m b = .ok d)
    (hone : 2 ^ 64 ≤ b.toNat) : a.toNat - d.toNat ≤ 1 :=
  calc a.toNat - d.toNat ≤ (2 ^ 64 - 1 + b.toNat - 1) / b.toNat := divQ_mulQ_loss_le hm hd
    _ ≤ 1 := Nat.le_of_lt_succ (Nat.div_lt_of_lt_mul (by omega))

/-- R100 (c): the divide takes an exact product back. -/
theorem divQ_mulQ_exact (hm : mulQ a b = .ok m) (hd : divQ m b = .ok d)
    (hdvd : 2 ^ 64 ∣ a.toNat * b.toNat) : d = a := by
  obtain ⟨hpos, hv⟩ := divQ_ok hd
  apply BitVec.eq_of_toNat_eq
  rw [hv, mulQ_exact hm hdvd, Nat.mul_div_cancel _ hpos]

end

/-- Settles O52: the division of a product in its domain succeeds, and (a) to (c) hold of its value. -/
theorem multiplyThenDivideLosesLittle : Obligations.MultiplyThenDivideLosesLittle :=
  ⟨fun _ _ _ hb hm hlt =>
    have hd := divQ_eq_ok hb hlt
    ⟨_, hd, divQ_mulQ_le hm hd, divQ_mulQ_loss_le hm hd, divQ_mulQ_loss_le_one hm hd,
      divQ_mulQ_exact hm hd⟩,
    mulQ_eq_ok_iff.mpr (by decide), divQ_zero_left (by decide)⟩

end Sys2Proof.Machine
end

section
/-! PROOFS. The base 2 logarithm (spec/41_log2.md R110 to R120). The fractional bits of a mantissa
are decided from the most significant down, so the bits still to come weigh less than the last one
decided; the loop of the engine and the fold of `refLog2` both compute the number they make. -/

namespace Sys2Proof.Machine

/-! ### The fraction of a mantissa -/

/-- The bits `n` iterations decide for mantissa `m` from index `i` on, as a number (R112). -/
def logFraction : (n i m : Nat) → Nat
  | 0, _, _ => 0
  | n + 1, i, m =>
    if (log2T.getD i 0).toNat ≤ m then
      2 ^ (63 - i) + logFraction n (i + 1) (m * 2 ^ 64 / (log2T.getD i 0).toNat)
    else logFraction n (i + 1) m

section
variable {n i m m' : Nat}

/-- A mantissa at or above the threshold has the bit, and goes on divided by the threshold. -/
theorem logFraction_of_le (h : (log2T.getD i 0).toNat ≤ m) :
    logFraction (n + 1) i m =
      2 ^ (63 - i) + logFraction n (i + 1) (m * 2 ^ 64 / (log2T.getD i 0).toNat) :=
  if_pos h

/-- A mantissa below the threshold does not have the bit, and goes on as it is. -/
theorem logFraction_of_lt (h : m < (log2T.getD i 0).toNat) :
    logFraction (n + 1) i m = logFraction n (i + 1) m :=
  if_neg (Nat.not_le.mpr h)

/-- The weight of a bit is twice that of the next (R112). -/
theorem two_pow_bitWeight (hi : i < 64) : 2 ^ (64 - i) = 2 ^ (63 - i) + 2 ^ (63 - i) := by
  rw [show 64 - i = (63 - i) + 1 by omega, Nat.pow_succ, Nat.mul_two]

/-- The bits from index `i` on weigh less than bit `i - 1`. -/
theorem logFraction_lt (h : n + i ≤ 64) : logFraction n i m < 2 ^ (64 - i) := by
  induction n generalizing i m with
  | zero => exact Nat.two_pow_pos _
  | succ n ih =>
    have hrest : ∀ m, logFraction n (i + 1) m < 2 ^ (63 - i) := fun m => by
      rw [show 63 - i = 64 - (i + 1) by omega]
      exact ih (by omega)
    rw [two_pow_bitWeight (by omega)]
    rcases Nat.lt_or_ge m (log2T.getD i 0).toNat with hlt | hle
    · rw [logFraction_of_lt hlt]
      exact Nat.lt_add_left _ (hrest m)
    · rw [logFraction_of_le hle]
      exact Nat.add_lt_add_left (hrest _) _

/-- No bit below the last index is set. -/
theorem two_pow_dvd_logFraction (h : n + i ≤ 64) : 2 ^ (64 - (n + i)) ∣ logFraction n i m := by
  induction n generalizing i m with
  | zero => exact Nat.dvd_zero _
  | succ n ih =>
    have hrest : ∀ m, 2 ^ (64 - (n + 1 + i)) ∣ logFraction n (i + 1) m := fun m => by
      rw [show n + 1 + i = n + (i + 1) by omega]
      exact ih (by omega)
    rcases Nat.lt_or_ge m (log2T.getD i 0).toNat with hlt | hle
    · rw [logFraction_of_lt hlt]
      exact hrest m
    · rw [logFraction_of_le hle]
      exact Nat.dvd_add (Nat.pow_dvd_pow 2 (by omega)) (hrest _)

/-- A greater mantissa has no smaller fraction: where the two first differ in a bit, the bits after
it cannot make up for it (R116). -/
theorem logFraction_mono (h : n + i ≤ 64) (hm : m ≤ m') :
    logFraction n i m ≤ logFraction n i m' := by
  induction n generalizing i m m' with
  | zero => exact Nat.le_refl _
  | succ n ih =>
    rcases Nat.lt_or_ge m (log2T.getD i 0).toNat with hlt | hle
    · rw [logFraction_of_lt hlt]
      rcases Nat.lt_or_ge m' (log2T.getD i 0).toNat with hlt' | hle'
      · rw [logFraction_of_lt hlt']
        exact ih (by omega) hm
      · have hrest : logFraction n (i + 1) m < 2 ^ (64 - (i + 1)) := logFraction_lt (by omega)
        rw [show 64 - (i + 1) = 63 - i by omega] at hrest
        rw [logFraction_of_le hle']
        exact Nat.le_add_right_of_le hrest.le
    · rw [logFraction_of_le hle, logFraction_of_le (hle.trans hm)]
      exact Nat.add_le_add_left
        (ih (by omega) (Nat.div_le_div_right (Nat.mul_le_mul_right _ hm))) _

/-- The last threshold is the least (R53). -/
theorem log2T_last_le : ∀ i < 20, (log2T.getD 19 0).toNat ≤ (log2T.getD i 0).toNat := by
  decide +kernel

/-- A mantissa below the last threshold has no bit set (R117). -/
theorem logFraction_of_lt_last (h : n + i ≤ 20) (hm : m < (log2T.getD 19 0).toNat) :
    logFraction n i m = 0 := by
  induction n generalizing i with
  | zero => rfl
  | succ n ih =>
    rw [logFraction_of_lt (hm.trans_le (log2T_last_le i (by omega)))]
    exact ih (by omega)

end

/-! ### The fold of `refLog2` computes the fraction -/

/-- One step of the fold of `refLog2`, on the pair of mantissa and fraction. -/
def logStep (p : Nat × Nat) (i : Nat) : Nat × Nat :=
  if (log2T.getD i 0).toNat ≤ p.1 then
    (p.1 * 2 ^ 64 / (log2T.getD i 0).toNat, p.2 + 2 ^ (63 - i))
  else p

theorem foldl_logStep (n i m f : Nat) :
    ((List.range' i n).foldl logStep (m, f)).2 = f + logFraction n i m := by
  induction n generalizing i m f with
  | zero => rfl
  | succ n ih =>
    rw [List.range'_succ, List.foldl_cons, logStep]
    rcases Nat.lt_or_ge m (log2T.getD i 0).toNat with hlt | hle
    · rw [if_neg (Nat.not_le.mpr hlt), ih, logFraction_of_lt hlt]
    · rw [if_pos hle, ih, logFraction_of_le hle, Nat.add_assoc]

/-- The logarithm is the integer part over the fraction of the normalised mantissa (R112). -/
theorem refLog2_eq (a : Nat) :
    refLog2 a =
      (Nat.log2 a - 64) * 2 ^ 64 + logFraction 20 0 (a / 2 ^ (Nat.log2 a - 64)) := by
  have hfold := foldl_logStep 20 0 (a / 2 ^ (Nat.log2 a - 64)) 0
  rw [Nat.zero_add, ← List.range_eq_range'] at hfold
  rw [← hfold]
  rfl

/-! ### The shape of the reference logarithm -/

theorem refLog2_div (a : Nat) : refLog2 a / 2 ^ 64 = Nat.log2 a - 64 := by
  have hfrac := logFraction_lt (n := 20) (i := 0) (m := a / 2 ^ (Nat.log2 a - 64)) (by decide)
  rw [refLog2_eq]
  omega

theorem two_pow_dvd_refLog2 (a : Nat) : 2 ^ 44 ∣ refLog2 a := by
  rw [refLog2_eq]
  exact Nat.dvd_add (Nat.dvd_mul_left_of_dvd (Nat.pow_dvd_pow 2 (by decide)) _)
    (two_pow_dvd_logFraction (n := 20) (i := 0) (by decide))

/-- The index of the most significant bit of a word is at most 255, so the integer part of its
logarithm is at most 191 (R116). -/
theorem log2_toNat_sub_le (a : Word) : Nat.log2 a.toNat - 64 ≤ 191 := by
  rcases Nat.eq_zero_or_pos a.toNat with h0 | hpos
  · simp [h0]
  · have hlog : Nat.log2 a.toNat < 256 := (Nat.log2_lt hpos.ne').mpr a.isLt
    omega

theorem refLog2_toNat_lt (a : Word) : refLog2 a.toNat < 192 * 2 ^ 64 := by
  have hdiv := refLog2_div a.toNat
  have hint := log2_toNat_sub_le a
  omega

theorem log2_mono {a a' : Nat} (h : a ≤ a') : Nat.log2 a ≤ Nat.log2 a' := by
  simpa only [Nat.log2_eq_log_two] using Nat.log_mono_right h

/-- Operands with the same most significant bit compare by their mantissas, others by their integer
parts (R116). -/
theorem refLog2_mono {a a' : Nat} (h : a ≤ a') : refLog2 a ≤ refLog2 a' := by
  have hdiv := refLog2_div a
  have hdiv' := refLog2_div a'
  rcases (Nat.sub_le_sub_right (log2_mono h) 64).eq_or_lt with heq | hlt
  · rw [refLog2_eq, refLog2_eq, heq]
    exact Nat.add_le_add_left (logFraction_mono (by decide) (Nat.div_le_div_right h)) _
  · omega

/-- A mantissa below the last threshold leaves the integer part alone (R117). -/
theorem refLog2_of_mantissa_lt {a : Nat}
    (h : a / 2 ^ (Nat.log2 a - 64) < (log2T.getD 19 0).toNat) :
    refLog2 a = (Nat.log2 a - 64) * 2 ^ 64 := by
  rw [refLog2_eq, logFraction_of_lt_last (by decide) h, Nat.add_zero]

/-! ### The engine computes the reference logarithm -/

/-- Setting bit `63 - i` of a fraction that has no bits there or below adds its weight. -/
theorem toNat_or_bit {f : BitVec 64} {i : Nat} (hi : i < 64) (hf : 2 ^ (64 - i) ∣ f.toNat) :
    (f ||| (1#64 <<< (63 - i))).toNat = f.toNat + 2 ^ (63 - i) := by
  obtain ⟨c, hc⟩ := hf
  have hbit : (1#64 <<< (63 - i)).toNat = 2 ^ (63 - i) := by
    rw [BitVec.toNat_shiftLeft, Nat.shiftLeft_eq, BitVec.toNat_ofNat, Nat.one_mod, Nat.one_mul,
      Nat.mod_eq_of_lt (Nat.pow_lt_pow_right (by decide) (by omega))]
  rw [BitVec.toNat_or, hbit, hc,
    Nat.two_pow_add_eq_or_of_lt (Nat.pow_lt_pow_right (by decide) (by omega))]

/-- The loop never fails on a mantissa in the domain of `divQ`, and adds the fraction of the
mantissa to the bits already decided. -/
theorem log2Loop_eq_ok {n i : Nat} {m : Word} {f : BitVec 64} (h : n + i ≤ 20)
    (hm : m.toNat < 2 ^ 192) (hf : 2 ^ (64 - i) ∣ f.toNat) :
    ∃ r, log2Loop n i m f = .ok r ∧ r.toNat = f.toNat + logFraction n i m.toNat := by
  induction n generalizing i m f with
  | zero => exact ⟨f, rfl, rfl⟩
  | succ n ih =>
    obtain ⟨hlow, _⟩ := log2T_range i (by omega)
    have hdvd : ∀ x, 2 ^ (64 - i) ∣ x → 2 ^ (64 - (i + 1)) ∣ x := fun x =>
      (Nat.pow_dvd_pow 2 (by omega)).trans
    rw [log2Loop, rom_log2 (by omega)]
    rcases Nat.lt_or_ge m.toNat (log2T.getD i 0).toNat with hlt | hle
    · obtain ⟨r, hr, hval⟩ := ih (by omega) hm (hdvd _ hf)
      refine ⟨r, ?_, by rw [hval, logFraction_of_lt hlt]⟩
      simp only [bind, Except.bind, Nat.not_le.mpr hlt, if_false, hr]
    · have hne : log2T.getD i 0 ≠ 0 := fun h0 => absurd hlow (by rw [h0]; decide)
      have hdiv := divQ_eq_ok hne hm
      obtain ⟨_, _, hquot⟩ := divQ_eq_ok_iff.mp hdiv
      have hquot_le : m.toNat * 2 ^ 64 / (log2T.getD i 0).toNat ≤ m.toNat :=
        Nat.div_le_of_le_mul (by rw [Nat.mul_comm]; exact Nat.mul_le_mul_right _ hlow.le)
      have hor := toNat_or_bit (by omega) hf
      obtain ⟨r, hr, hval⟩ := ih (i := i + 1) (by omega) (by rw [hquot]; omega)
        (by rw [hor]; exact Nat.dvd_add (hdvd _ hf) (Nat.pow_dvd_pow 2 (by omega)))
      refine ⟨r, ?_, by rw [hval, hor, hquot, logFraction_of_le hle, Nat.add_assoc]⟩
      simp only [bind, Except.bind, hle, if_true, hdiv, hr]

/-- An integer part that fits its field stands above the fraction. -/
theorem toNat_joinParts {k : Nat} (f : BitVec 64) (hk : k < 2 ^ 192) :
    (joinParts k f).toNat = k * 2 ^ 64 + f.toNat := by
  rw [joinParts, BitVec.toNat_append, BitVec.toNat_ofNat, Nat.mod_eq_of_lt hk,
    ← Nat.shiftLeft_add_eq_or_of_lt f.isLt, Nat.shiftLeft_eq]

/-- Normalisation leaves a mantissa below 2.0 (R114). -/
theorem mantissa_lt (a : Nat) : a / 2 ^ (Nat.log2 a - 64) < 2 ^ 65 := by
  refine Nat.div_lt_of_lt_mul ?_
  rw [← Nat.pow_add]
  exact Nat.lt_log2_self.trans_le (Nat.pow_le_pow_right (by decide) (by omega))

section
variable {a v : Word}

/-- Below 1.0 there is no logarithm (R111). -/
theorem log2Q_of_lt (h : a.toNat < 2 ^ 64) : log2Q a = .error (.failure .domainError) :=
  if_pos h

/-- From 1.0 on the engine answers the reference logarithm (R112). -/
theorem log2Q_of_ge (h : 2 ^ 64 ≤ a.toNat) :
    log2Q a = .ok (BitVec.ofNat 256 (refLog2 a.toNat)) := by
  have hmantissa : (a >>> (msb a - 64)).toNat = a.toNat / 2 ^ (Nat.log2 a.toNat - 64) := by
    rw [BitVec.toNat_ushiftRight, Nat.shiftRight_eq_div_pow, msb]
  have hlt := mantissa_lt a.toNat
  obtain ⟨r, hr, hval⟩ := log2Loop_eq_ok (n := 20) (i := 0) (m := a >>> (msb a - 64)) (f := 0)
    (by decide) (by rw [hmantissa]; omega) (Nat.dvd_zero _)
  have hjoin : joinParts (msb a - 64) r = BitVec.ofNat 256 (refLog2 a.toNat) := by
    have hk := log2_toNat_sub_le a
    have hfits := refLog2_toNat_lt a
    apply BitVec.eq_of_toNat_eq
    rw [toNat_joinParts r (by rw [msb]; omega), hval, hmantissa, BitVec.toNat_ofNat,
      Nat.mod_eq_of_lt (by omega), refLog2_eq]
    simp [msb]
  simp only [log2Q, Nat.not_lt.mpr h, if_false, bind, Except.bind, hr, hjoin]

/-- The value of a logarithm that succeeds. -/
theorem log2Q_ok (h : log2Q a = .ok v) : v.toNat = refLog2 a.toNat := by
  rcases Nat.lt_or_ge a.toNat (2 ^ 64) with hlt | hge
  · rw [log2Q_of_lt hlt] at h
    cases h
  · have hfits := refLog2_toNat_lt a
    rw [log2Q_of_ge hge] at h
    injection h with h
    rw [← h, BitVec.toNat_ofNat, Nat.mod_eq_of_lt (by omega)]

/-- A logarithm that fails makes `LN` fail with it (R120). -/
theorem lnQ_of_lt (h : a.toNat < 2 ^ 64) : lnQ a = .error (.failure .domainError) := by
  rw [lnQ, log2Q_of_lt h]
  rfl

/-- `LN` multiplies the logarithm by the constant it reads (R120). For every word `c`: with the
numeral in its place the kernel would unfold the product of `mulQ` one successor at a time. -/
theorem lnQ_eq_mulQ {l c : Word} (hlog : log2Q a = .ok l) (hconst : rom tblConst 0 = .ok c) :
    lnQ a = mulQ l c := by
  rw [lnQ, hlog, hconst]
  rfl

/-- The product with `LN2` always fits (R120). -/
theorem lnQ_of_ge (h : 2 ^ 64 ≤ a.toNat) :
    lnQ a = .ok (BitVec.ofNat 256 (refLog2 a.toNat * 0xB17217F7D1CF79AC / 2 ^ 64)) := by
  have hlog := log2Q_of_ge h
  have hfits := refLog2_toNat_lt a
  have hln2 : (0xB17217F7D1CF79AC : Word).toNat = 0xB17217F7D1CF79AC := by decide
  rw [lnQ_eq_mulQ hlog rom_const, mulQ_eq_ok_iff, log2Q_ok hlog, hln2, BitVec.toNat_ofNat,
    Nat.mod_eq_of_lt (by omega)]

end

/-! ### The commands `LOG2` and `LN` -/

/-- Settles O9: the domain test, then the reference logarithm. -/
theorem log2CompletesWithBitDecomposition : Obligations.Log2CompletesWithBitDecomposition := by
  refine ⟨rfl, fun s a b hrun => ?_⟩
  by_cases hlt : a.toNat < 2 ^ 64
  · simp only [hlt, if_true]
    exact exec_completes_failure (i := .log2) hrun (log2Q_of_lt hlt)
  · simp only [hlt, if_false]
    exact exec_completes_ok hrun (log2Q_of_ge (Nat.not_lt.mp hlt))

/-- Settles O10: the failure is the logarithm's own, the multiplication has none. -/
theorem lnCompletesWithScaledLog2 : Obligations.LnCompletesWithScaledLog2 := by
  refine ⟨rfl, fun s a b hrun => ?_⟩
  by_cases hlt : a.toNat < 2 ^ 64
  · simp only [hlt, if_true]
    exact exec_completes_failure (i := .ln) hrun (lnQ_of_lt hlt)
  · simp only [hlt, if_false]
    exact exec_completes_ok hrun (lnQ_of_ge (Nat.not_lt.mp hlt))

/-! ### The shape of a logarithm and its exact cases -/

/-- A word that is a multiple of `2^n` has its low `n` bits zero. -/
theorem extractLsb'_eq_zero_of_dvd {v : Word} {n : Nat} (h : 2 ^ n ∣ v.toNat) :
    v.extractLsb' 0 n = 0 := by
  apply BitVec.eq_of_toNat_eq
  rw [BitVec.extractLsb'_toNat, Nat.shiftRight_zero, Nat.mod_eq_zero_of_dvd h]
  rfl

/-- Settles O54: a result is the reference logarithm, which has this shape and is monotone. -/
theorem logarithmHasItsShape : Obligations.LogarithmHasItsShape := by
  refine ⟨fun a v h => ?_, fun a a' v v' ha h h' => ?_⟩
  · have hv := log2Q_ok h
    have hdiv : v.toNat / 2 ^ 64 = Nat.log2 a.toNat - 64 := by rw [hv, refLog2_div]
    exact ⟨extractLsb'_eq_zero_of_dvd (hv ▸ two_pow_dvd_refLog2 a.toNat), hdiv,
      hdiv ▸ log2_toNat_sub_le a, hv ▸ refLog2_toNat_lt a⟩
  · rw [log2Q_ok h, log2Q_ok h']
    exact refLog2_mono ha

/-- R117, the general case: the mantissa is below `LOG2T[19]`. -/
theorem log2Q_of_mantissa_lt {a : Word} (h : 2 ^ 64 ≤ a.toNat)
    (hm : a.toNat / 2 ^ (Nat.log2 a.toNat - 64) < 0x100000B1721BCFC9A) :
    log2Q a = .ok (BitVec.ofNat 256 ((Nat.log2 a.toNat - 64) * 2 ^ 64)) := by
  rw [log2Q_of_ge h, refLog2_of_mantissa_lt hm]

/-- R117, the powers of two: the mantissa is 1.0. -/
theorem log2Q_two_pow {j : Nat} (hj : j ≤ 191) :
    log2Q (BitVec.ofNat 256 (2 ^ (64 + j))) = .ok (BitVec.ofNat 256 (j * 2 ^ 64)) := by
  have hpow := toNat_ofNat_two_pow (n := 64 + j) (by omega)
  have hint : Nat.log2 (2 ^ (64 + j)) - 64 = j := by rw [Nat.log2_two_pow]; omega
  have hmantissa : 2 ^ (64 + j) / 2 ^ j = 2 ^ 64 := by
    rw [Nat.pow_add, Nat.mul_div_cancel _ (Nat.two_pow_pos j)]
  have hlog := log2Q_of_mantissa_lt (a := BitVec.ofNat 256 (2 ^ (64 + j)))
    (by rw [hpow]; exact Nat.pow_le_pow_right (by decide) (by omega))
    (by rw [hpow, hint, hmantissa]; decide)
  rwa [hpow, hint] at hlog

/-- Settles O55: a power of two is the case of the least mantissa. -/
theorem logarithmIsExactOnPowersOfTwo : Obligations.LogarithmIsExactOnPowersOfTwo :=
  ⟨fun _ => log2Q_two_pow, fun _ => log2Q_of_mantissa_lt⟩

end Sys2Proof.Machine
end

section
/-! PROOFS. The pow2 engine (spec/42_pow2.md R134 to R141). The fraction loop answers the product of
the selected factors, which moves one way as bits are added to the fraction: up with factors of at
least 1.0, down with factors of at most 1.0. So it lies between the product of no factor, which is
1.0, and the product of all twenty. -/

namespace Sys2Proof.Machine

/-! ### The product of the selected factors -/

/-- One step of the fold of `refFraction`: factor `i`, when fractional bit `i` of `x` is set. -/
def fracStep (tbl : List Word) (x r i : Nat) : Nat :=
  if x.testBit (63 - i) then r * (tbl.getD i 0).toNat / 2 ^ 64 else r

theorem refFraction_eq_foldl (tbl : List Word) (x : Nat) :
    refFraction tbl x = (List.range 20).foldl (fracStep tbl x) (2 ^ 64) := rfl

section
variable {tbl : List Word} {x y r r' i : Nat}

theorem fracStep_of_set (h : x.testBit (63 - i) = true) :
    fracStep tbl x r i = r * (tbl.getD i 0).toNat / 2 ^ 64 :=
  if_pos h

theorem fracStep_of_clear (h : x.testBit (63 - i) = false) : fracStep tbl x r i = r :=
  if_neg (Bool.eq_false_iff.mp h)

/-- A factor of at most 2.0 at most doubles the product. -/
theorem fracStep_le_double (h : (tbl.getD i 0).toNat ≤ 2 ^ 65) : fracStep tbl x r i ≤ r * 2 := by
  rcases hx : x.testBit (63 - i) with _ | _
  · rw [fracStep_of_clear hx]
    omega
  · rw [fracStep_of_set hx]
    exact Nat.div_le_of_le_mul ((Nat.mul_le_mul_left r h).trans_eq (by omega))

/-- A factor of at least 1.0 does not lower the product. -/
theorem le_fracStep (h : 2 ^ 64 ≤ (tbl.getD i 0).toNat) : r ≤ fracStep tbl x r i := by
  rcases hx : x.testBit (63 - i) with _ | _
  · rw [fracStep_of_clear hx]
  · rw [fracStep_of_set hx, Nat.le_div_iff_mul_le (Nat.two_pow_pos 64)]
    exact Nat.mul_le_mul_left r h

/-- A factor of at most 1.0 does not raise the product. -/
theorem fracStep_le (h : (tbl.getD i 0).toNat ≤ 2 ^ 64) : fracStep tbl x r i ≤ r := by
  rcases hx : x.testBit (63 - i) with _ | _
  · rw [fracStep_of_clear hx]
  · rw [fracStep_of_set hx]
    exact Nat.div_le_of_le_mul ((Nat.mul_le_mul_left r h).trans_eq (Nat.mul_comm ..))

/-- With a factor of at least 1.0, a step that selects more gives no less. -/
theorem fracStep_mono (hfactor : 2 ^ 64 ≤ (tbl.getD i 0).toNat)
    (hbit : x.testBit (63 - i) = true → y.testBit (63 - i) = true) (hr : r ≤ r') :
    fracStep tbl x r i ≤ fracStep tbl y r' i := by
  rcases hx : x.testBit (63 - i) with _ | _
  · rw [fracStep_of_clear hx]
    exact hr.trans (le_fracStep hfactor)
  · rw [fracStep_of_set hx, fracStep_of_set (hbit hx)]
    exact Nat.div_le_div_right (Nat.mul_le_mul_right _ hr)

/-- With a factor of at most 1.0, a step that selects more gives no more. -/
theorem fracStep_anti (hfactor : (tbl.getD i 0).toNat ≤ 2 ^ 64)
    (hbit : x.testBit (63 - i) = true → y.testBit (63 - i) = true) (hr : r' ≤ r) :
    fracStep tbl y r' i ≤ fracStep tbl x r i := by
  rcases hx : x.testBit (63 - i) with _ | _
  · rw [fracStep_of_clear hx]
    exact (fracStep_le hfactor).trans hr
  · rw [fracStep_of_set hx, fracStep_of_set (hbit hx)]
    exact Nat.div_le_div_right (Nat.mul_le_mul_right _ hr)

theorem refFraction_mono (hfactor : ∀ i < 20, 2 ^ 64 ≤ (tbl.getD i 0).toNat)
    (hbit : ∀ i < 20, x.testBit (63 - i) = true → y.testBit (63 - i) = true) :
    refFraction tbl x ≤ refFraction tbl y :=
  List.foldl_rel (Nat.le_refl _) fun i hi _ _ hr =>
    have hi := List.mem_range.mp hi
    fracStep_mono (hfactor i hi) (hbit i hi) hr

theorem refFraction_anti (hfactor : ∀ i < 20, (tbl.getD i 0).toNat ≤ 2 ^ 64)
    (hbit : ∀ i < 20, x.testBit (63 - i) = true → y.testBit (63 - i) = true) :
    refFraction tbl y ≤ refFraction tbl x :=
  List.foldl_rel (r := fun a b => a ≤ b) (Nat.le_refl _) fun i hi _ _ hr =>
    have hi := List.mem_range.mp hi
    fracStep_anti (hfactor i hi) (hbit i hi) hr

/-- A fraction with no bit set selects no factor. -/
theorem refFraction_zero (tbl : List Word) : refFraction tbl 0 = 2 ^ 64 := by
  simp only [refFraction, Nat.zero_testBit, Bool.false_eq_true, if_false, List.foldl_fixed]

/-- Only the fractional field selects factors (R134). -/
theorem refFraction_fracPart (tbl : List Word) (x : Word) :
    refFraction tbl (fracPart x).toNat = refFraction tbl x.toNat := by
  have hbit : ∀ i, (fracPart x).toNat.testBit (63 - i) = x.toNat.testBit (63 - i) := fun i => by
    rw [fracPart, BitVec.extractLsb'_toNat, Nat.shiftRight_zero, Nat.testBit_mod_two_pow,
      decide_eq_true (by omega), Bool.true_and]
  simp only [refFraction, hbit]

end

/-! ### The fraction loop answers the product -/

section
variable {t : Table} {f : BitVec 64} {n i : Nat} {r r' : Word}

/-- An iteration goes on with the word that is the step's product. -/
theorem fracLoop_succ (hlen : (romTable t).length = 20) (hi : i < 20)
    (hr' : r'.toNat = fracStep (romTable t) f.toNat r.toNat i) :
    fracLoop t f (n + 1) i r = fracLoop t f n (i + 1) r' := by
  rcases hbit : fracBit f i with _ | _
  · rw [fracStep_of_clear hbit] at hr'
    rw [fracLoop, hbit, BitVec.eq_of_toNat_eq hr']
    rfl
  · rw [fracStep_of_set hbit] at hr'
    rw [fracLoop, hbit, if_pos rfl, rom_of_lt (by omega) (by omega)]
    simp only [bind, Except.bind, mulQ_eq_ok_iff.mpr hr']

/-- With factors of at most 2.0, no multiplication of the loop overflows as long as the product may
still double `n` times. -/
theorem fracLoop_eq_ok (hlen : (romTable t).length = 20)
    (hfactor : ∀ i < 20, ((romTable t).getD i 0).toNat ≤ 2 ^ 65) (hn : n + i ≤ 20)
    (hfits : r.toNat * 2 ^ n < 2 ^ 256) :
    ∃ v, fracLoop t f n i r = .ok v ∧
      v.toNat = (List.range' i n).foldl (fracStep (romTable t) f.toNat) r.toNat := by
  induction n generalizing i r with
  | zero => exact ⟨r, rfl, rfl⟩
  | succ n ih =>
    have hstep : fracStep (romTable t) f.toNat r.toNat i * 2 ^ n < 2 ^ 256 :=
      calc fracStep (romTable t) f.toNat r.toNat i * 2 ^ n
          ≤ r.toNat * 2 * 2 ^ n := Nat.mul_le_mul_right _ (fracStep_le_double (hfactor i (by omega)))
        _ = r.toNat * 2 ^ (n + 1) := by rw [Nat.mul_assoc, Nat.pow_succ, Nat.mul_comm 2]
        _ < 2 ^ 256 := hfits
    have hlt : fracStep (romTable t) f.toNat r.toNat i < 2 ^ 256 :=
      (Nat.le_mul_of_pos_right _ (Nat.two_pow_pos n)).trans_lt hstep
    have hvalue := (BitVec.toNat_ofNat (w := 256) _).trans (Nat.mod_eq_of_lt hlt)
    obtain ⟨v, hv, hfold⟩ := ih (i := i + 1) (by omega) (hvalue.symm ▸ hstep)
    refine ⟨v, (fracLoop_succ hlen (by omega) hvalue).trans hv, ?_⟩
    rw [hfold, hvalue, List.range'_succ, List.foldl_cons]

/-- The loop over all twenty bits answers the product of the selected factors (R134, R140). -/
theorem fracLoop_eq_refFraction (hlen : (romTable t).length = 20)
    (hfactor : ∀ i < 20, ((romTable t).getD i 0).toNat ≤ 2 ^ 65) (f : BitVec 64) :
    ∃ v, fracLoop t f 20 0 oneQ = .ok v ∧ v.toNat = refFraction (romTable t) f.toNat := by
  rw [refFraction_eq_foldl, List.range_eq_range']
  exact fracLoop_eq_ok hlen hfactor (by decide) (by decide)

/-- The product of all twenty factors is the fold of the table. -/
theorem refFraction_allOnes (hlen : (romTable t).length = 20)
    (hfactor : ∀ i < 20, ((romTable t).getD i 0).toNat ≤ 2 ^ 65)
    (hfold : (romTable t).foldlM mulQ oneQ = .ok r) :
    refFraction (romTable t) (BitVec.allOnes 64).toNat = r.toNat := by
  obtain ⟨v, hv, hvalue⟩ := fracLoop_eq_refFraction hlen hfactor (BitVec.allOnes 64)
  rw [fracLoop_allOnes_eq_fold hlen, hfold] at hv
  injection hv with hv
  rw [← hvalue, hv]

end

/-! ### The two tables of the pow2 engine -/

theorem log2T_le_two : ∀ i < 20, (log2T.getD i 0).toNat ≤ 2 ^ 65 :=
  fun i hi => (log2T_range i hi).2.le

theorem invLog2T_le_two : ∀ i < 20, (invLog2T.getD i 0).toNat ≤ 2 ^ 65 :=
  fun i hi => (invLog2T_range i hi).2.le.trans (by decide)

theorem fracLoop_log2 (f : BitVec 64) :
    ∃ v, fracLoop tblLog2 f 20 0 oneQ = .ok v ∧ v.toNat = refFraction log2T f.toNat :=
  fracLoop_eq_refFraction (t := tblLog2) log2T_length log2T_le_two f

theorem fracLoop_invLog2 (f : BitVec 64) :
    ∃ v, fracLoop tblInvLog2 f 20 0 oneQ = .ok v ∧ v.toNat = refFraction invLog2T f.toNat :=
  fracLoop_eq_refFraction (t := tblInvLog2) invLog2T_length invLog2T_le_two f

theorem invLog2T_fold : invLog2T.foldlM mulQ oneQ = .ok 0x8000058B90DE7E43 := by decide +kernel

theorem refFraction_log2T_allOnes :
    refFraction log2T (BitVec.allOnes 64).toNat = 0x1FFFFE9D1BD7C04B1 :=
  refFraction_allOnes (t := tblLog2) log2T_length log2T_le_two log2T_fold

theorem refFraction_invLog2T_allOnes :
    refFraction invLog2T (BitVec.allOnes 64).toNat = 0x8000058B90DE7E43 :=
  refFraction_allOnes (t := tblInvLog2) invLog2T_length invLog2T_le_two invLog2T_fold

/-- R135 (a). -/
theorem refFraction_log2T_bounds (x : Nat) :
    2 ^ 64 ≤ refFraction log2T x ∧ refFraction log2T x ≤ 0x1FFFFE9D1BD7C04B1 := by
  have hfactor := fun i hi => (log2T_range i hi).1.le
  rw [← refFraction_log2T_allOnes, ← refFraction_zero log2T]
  exact ⟨refFraction_mono hfactor fun i _ h => by simp at h,
    refFraction_mono hfactor fun i _ _ => fracBit_allOnes i⟩

/-- R141. -/
theorem refFraction_invLog2T_bounds (x : Nat) :
    0x8000058B90DE7E43 ≤ refFraction invLog2T x ∧ refFraction invLog2T x ≤ 2 ^ 64 := by
  have hfactor := fun i hi => (invLog2T_range i hi).2.le
  rw [← refFraction_invLog2T_allOnes, ← refFraction_zero invLog2T]
  exact ⟨refFraction_anti hfactor fun i _ _ => fracBit_allOnes i,
    refFraction_anti hfactor fun i _ h => by simp at h⟩

/-! ### The values of `POW2` and `INVPOW2` -/

/-- R135 (b): a product below 2.0 shifted left by at most 191 loses no bit. -/
theorem mulQ_two_pow_of_lt_two {r : Word} {k : Nat} (hr : r.toNat < 2 ^ 65) (hk : k ≤ 191) :
    mulQ (BitVec.ofNat 256 (2 ^ (64 + k))) r = .ok (r <<< k) ∧
      (r <<< k).toNat = r.toNat * 2 ^ k := by
  have hfits : r.toNat * 2 ^ k < 2 ^ 256 :=
    calc r.toNat * 2 ^ k < 2 ^ 65 * 2 ^ k := Nat.mul_lt_mul_of_pos_right hr (Nat.two_pow_pos k)
      _ ≤ 2 ^ 65 * 2 ^ 191 := Nat.mul_le_mul_left _ (Nat.pow_le_pow_right (by decide) hk)
      _ = 2 ^ 256 := by rw [← Nat.pow_add]
  refine ⟨(mulQ_comm _ _).trans (mulQ_two_pow hk hfits), ?_⟩
  rw [BitVec.toNat_shiftLeft, Nat.shiftLeft_eq, Nat.mod_eq_of_lt hfits]

/-- From integer part 41 on there is no result (R139). -/
theorem invPow2Q_of_ge {x : Word} (h : 41 ≤ x.toNat / 2 ^ 64) :
    invPow2Q x = .error (.failure .domainError) :=
  if_pos h

/-- Below it the engine answers the product shifted right (R140). -/
theorem invPow2Q_of_lt {x : Word} (h : x.toNat / 2 ^ 64 < 41) :
    ∃ v, invPow2Q x = .ok v ∧ v.toNat = refInvPow2 x.toNat := by
  obtain ⟨r, hr, hvalue⟩ := fracLoop_invLog2 (fracPart x)
  refine ⟨r >>> intPart x, ?_, ?_⟩
  · simp only [invPow2Q, intPart, Nat.not_le.mpr h, if_false, bind, Except.bind, hr]
  · rw [BitVec.toNat_ushiftRight, Nat.shiftRight_eq_div_pow, hvalue, refFraction_fracPart]
    rfl

/-- R141: a product of at least `2^63` is shifted right by at most 40. -/
theorem refInvPow2_bounds {x : Nat} (h : x / 2 ^ 64 < 41) :
    2 ^ 23 ≤ refInvPow2 x ∧ refInvPow2 x ≤ 2 ^ 64 := by
  obtain ⟨hlow, hhigh⟩ := refFraction_invLog2T_bounds x
  refine ⟨?_, (Nat.div_le_self ..).trans hhigh⟩
  calc 2 ^ 23 ≤ 0x8000058B90DE7E43 / 2 ^ 40 := by decide
    _ ≤ refFraction invLog2T x / 2 ^ 40 := Nat.div_le_div_right hlow
    _ ≤ refInvPow2 x :=
      Nat.div_le_div_left (Nat.pow_le_pow_right (by decide) (by omega)) (Nat.two_pow_pos _)

/-! ### The statements -/

/-- Settles O12: the domain test, then the shifted product. -/
theorem invPow2CompletesWithShiftedProduct :
    Obligations.InvPow2CompletesWithShiftedProduct := by
  refine ⟨rfl, fun s a b hrun => ?_⟩
  by_cases hlt : a.toNat / 2 ^ 64 < 41
  · obtain ⟨v, hv, hvalue⟩ := invPow2Q_of_lt hlt
    simp only [hlt, if_true, ← hvalue, BitVec.ofNat_toNat, BitVec.setWidth_eq]
    exact exec_completes_ok (i := .invPow2) hrun hv
  · simp only [hlt, if_false]
    exact exec_completes_failure (i := .invPow2) hrun (invPow2Q_of_ge (Nat.not_lt.mp hlt))

/-- Settles O56: the loop answers the product, whose upper bound leaves room for every shift. -/
theorem pow2NeverOverflowsInside : Obligations.Pow2NeverOverflowsInside := by
  intro f
  obtain ⟨r, hr, hvalue⟩ := fracLoop_log2 f
  obtain ⟨hlow, hhigh⟩ := refFraction_log2T_bounds f.toNat
  rw [← hvalue] at hlow hhigh
  exact ⟨r, hr, hlow, hhigh, fun k => mulQ_two_pow_of_lt_two (hhigh.trans_lt (by decide))⟩

/-- Settles O57: the bounds of the product, its lower end attained, and of its right shift. -/
theorem invPow2StaysInItsBounds : Obligations.InvPow2StaysInItsBounds := by
  refine ⟨fun f => ?_, (fracLoop_allOnes_eq_fold (t := tblInvLog2) invLog2T_length).trans
    invLog2T_fold, fun x hx => ?_, fun x => invPow2Q_of_ge⟩
  · obtain ⟨r, hr, hvalue⟩ := fracLoop_invLog2 f
    exact ⟨r, hr, hvalue ▸ refFraction_invLog2T_bounds f.toNat⟩
  · obtain ⟨v, hv, hvalue⟩ := invPow2Q_of_lt hx
    exact ⟨v, hv, hvalue ▸ refInvPow2_bounds hx⟩

end Sys2Proof.Machine
end

section
/-! PROOFS. The engine of `INVEXP` (spec/43_exp.md R158 to R161). Every factor of either loop is at
most 1.0, so no multiplication overflows, and bits added to the operand never raise the product. So
below the bound `2^69` it is least at `2^69 - 1`, where every bit is set; the bound itself gives one
more. -/

namespace Sys2Proof.Machine

/-! ### The product of the selected integer factors -/

/-- One step of the fold of `refInteger`: factor `j`, when bit `j` of the integer part is set. -/
def intStep (tbl : List Word) (k r j : Nat) : Nat :=
  if k.testBit j then r * (tbl.getD j 0).toNat / 2 ^ 64 else r

theorem refInteger_eq_foldl (tbl : List Word) (k r : Nat) :
    refInteger tbl k r = (List.range 8).foldl (intStep tbl k) r := rfl

section
variable {tbl : List Word} {k l r r' j : Nat}

theorem intStep_of_set (h : k.testBit j = true) :
    intStep tbl k r j = r * (tbl.getD j 0).toNat / 2 ^ 64 :=
  if_pos h

theorem intStep_of_clear (h : k.testBit j = false) : intStep tbl k r j = r :=
  if_neg (Bool.eq_false_iff.mp h)

/-- A factor of at most 1.0 does not raise the product. -/
theorem intStep_le (h : (tbl.getD j 0).toNat ≤ 2 ^ 64) : intStep tbl k r j ≤ r := by
  rcases hk : k.testBit j with _ | _
  · rw [intStep_of_clear hk]
  · rw [intStep_of_set hk]
    exact Nat.div_le_of_le_mul ((Nat.mul_le_mul_left r h).trans_eq (Nat.mul_comm ..))

/-- With a factor of at most 1.0, a step that selects more gives no more. -/
theorem intStep_anti (hfactor : (tbl.getD j 0).toNat ≤ 2 ^ 64)
    (hbit : k.testBit j = true → l.testBit j = true) (hr : r' ≤ r) :
    intStep tbl l r' j ≤ intStep tbl k r j := by
  rcases hk : k.testBit j with _ | _
  · rw [intStep_of_clear hk]
    exact (intStep_le hfactor).trans hr
  · rw [intStep_of_set hk, intStep_of_set (hbit hk)]
    exact Nat.div_le_div_right (Nat.mul_le_mul_right _ hr)

theorem refInteger_anti (hfactor : ∀ j < 8, (tbl.getD j 0).toNat ≤ 2 ^ 64)
    (hbit : ∀ j < 8, k.testBit j = true → l.testBit j = true) (hr : r' ≤ r) :
    refInteger tbl l r' ≤ refInteger tbl k r :=
  List.foldl_rel (r := fun a b => a ≤ b) hr fun j hj _ _ hle =>
    have hj := List.mem_range.mp hj
    intStep_anti (hfactor j hj) (hbit j hj) hle

end

/-! ### The integer loop answers the product -/

section
variable {t : Table} {k n j : Nat} {r r' : Word}

/-- An iteration goes on with the word that is the step's product. -/
theorem intLoop_succ (hlen : 8 ≤ (romTable t).length) (hj : j < 8)
    (hr' : r'.toNat = intStep (romTable t) k r.toNat j) :
    intLoop t k (n + 1) j r = intLoop t k n (j + 1) r' := by
  rcases hbit : k.testBit j with _ | _
  · rw [intStep_of_clear hbit] at hr'
    rw [intLoop, hbit, BitVec.eq_of_toNat_eq hr']
    rfl
  · rw [intStep_of_set hbit] at hr'
    rw [intLoop, hbit, if_pos rfl, rom_of_lt (by omega) (by omega)]
    simp only [bind, Except.bind, mulQ_eq_ok_iff.mpr hr']

/-- With factors of at most 1.0, no multiplication of the loop overflows (R161). -/
theorem intLoop_eq_ok (hlen : 8 ≤ (romTable t).length)
    (hfactor : ∀ j < 8, ((romTable t).getD j 0).toNat ≤ 2 ^ 64) (hn : n + j ≤ 8) :
    ∃ v, intLoop t k n j r = .ok v ∧
      v.toNat = (List.range' j n).foldl (intStep (romTable t) k) r.toNat := by
  induction n generalizing j r with
  | zero => exact ⟨r, rfl, rfl⟩
  | succ n ih =>
    have hlt : intStep (romTable t) k r.toNat j < 2 ^ 256 :=
      (intStep_le (hfactor j (by omega))).trans_lt r.isLt
    have hvalue := (BitVec.toNat_ofNat (w := 256) _).trans (Nat.mod_eq_of_lt hlt)
    obtain ⟨v, hv, hfold⟩ := ih (j := j + 1) (by omega)
    refine ⟨v, (intLoop_succ hlen (by omega) hvalue).trans hv, ?_⟩
    rw [hfold, hvalue, List.range'_succ, List.foldl_cons]

/-- The loop over all eight bits answers the product of the selected factors (R160). -/
theorem intLoop_eq_refInteger (hlen : 8 ≤ (romTable t).length)
    (hfactor : ∀ j < 8, ((romTable t).getD j 0).toNat ≤ 2 ^ 64) (k : Nat) (r : Word) :
    ∃ v, intLoop t k 8 0 r = .ok v ∧ v.toNat = refInteger (romTable t) k r.toNat := by
  rw [refInteger_eq_foldl, List.range_eq_range']
  exact intLoop_eq_ok hlen hfactor (by decide)

end

/-! ### The two tables of `INVEXP` -/

theorem invExpPosT_le_one : ∀ j < 8, (invExpPosT.getD j 0).toNat ≤ 2 ^ 64 := by decide

theorem invExpNegT_le_one : ∀ i < 20, (invExpNegT.getD i 0).toNat ≤ 2 ^ 64 :=
  fun i hi => (invExpNegT_range i hi).2.le

theorem fracLoop_invExpNeg (f : BitVec 64) :
    ∃ v, fracLoop tblInvExpNeg f 20 0 oneQ = .ok v ∧ v.toNat = refFraction invExpNegT f.toNat :=
  fracLoop_eq_refFraction (t := tblInvExpNeg) invExpNegT_length
    (fun i hi => (invExpNegT_le_one i hi).trans (by decide)) f

theorem intLoop_invExpPos (k : Nat) (r : Word) :
    ∃ v, intLoop tblInvExpPos k 8 0 r = .ok v ∧ v.toNat = refInteger invExpPosT k r.toNat :=
  intLoop_eq_refInteger (t := tblInvExpPos) invExpPosT_length.ge invExpPosT_le_one k r

/-! ### The value of `INVEXP` -/

/-- Above the bound there is no result (R159). -/
theorem invExpQ_of_gt {a : Word} (h : 2 ^ 69 < a.toNat) :
    invExpQ a = .error (.failure .domainError) :=
  if_pos h

/-- Up to the bound the engine answers the product of the selected factors (R160). -/
theorem invExpQ_of_le {a : Word} (h : a.toNat ≤ 2 ^ 69) :
    ∃ v, invExpQ a = .ok v ∧ v.toNat = refInvExp a.toNat := by
  obtain ⟨r, hr, hfrac⟩ := fracLoop_invExpNeg (fracPart a)
  obtain ⟨v, hv, hint⟩ := intLoop_invExpPos (intPart a) r
  refine ⟨v, ?_, ?_⟩
  · simp only [invExpQ, Nat.not_lt.mpr h, if_false, bind, Except.bind, hr, hv]
  · rw [hint, hfrac, refFraction_fracPart]
    rfl

/-- An operand with more bits set selects more factors, and gives no more. -/
theorem refInvExp_anti {x y : Nat} (hbit : ∀ i, x.testBit i = true → y.testBit i = true) :
    refInvExp y ≤ refInvExp x := by
  refine refInteger_anti invExpPosT_le_one (fun j _ => ?_)
    (refFraction_anti invExpNegT_le_one fun i _ => hbit (63 - i))
  rw [Nat.testBit_div_two_pow, Nat.testBit_div_two_pow]
  exact hbit _

theorem refInvExp_zero : refInvExp 0 = 2 ^ 64 := by decide +kernel

/-- R161, the smallest result: every factor of the domain's open part is selected. -/
theorem refInvExp_allOnes : refInvExp (2 ^ 69 - 1) = 0x3908C := by decide +kernel

/-- Vector INVEXP-14: at the bound itself only `INVEXPPOS[5]` is selected. -/
theorem refInvExp_bound : refInvExp (2 ^ 69) = 0x3908D := by decide +kernel

theorem refInvExp_le_one (a : Nat) : refInvExp a ≤ 2 ^ 64 := by
  rw [← refInvExp_zero]
  exact refInvExp_anti fun i h => by simp at h

/-- Below the bound the bits of `2^69 - 1` contain those of the operand; the bound is evaluated. -/
theorem le_refInvExp {a : Nat} (h : a ≤ 2 ^ 69) : 0x3908C ≤ refInvExp a := by
  rcases h.lt_or_eq with hlt | rfl
  · rw [← refInvExp_allOnes]
    refine refInvExp_anti fun i hi => ?_
    rw [Nat.testBit_two_pow_sub_one, decide_eq_true_eq]
    by_contra hge
    rw [Nat.testBit_lt_two_pow (hlt.trans_le (Nat.pow_le_pow_right (by decide) (by omega)))] at hi
    cases hi
  · rw [refInvExp_bound]
    decide

/-! ### The statements -/

/-- Settles O14: the domain test, then the product of the selected factors. -/
theorem invExpCompletesWithFactorProduct : Obligations.InvExpCompletesWithFactorProduct := by
  refine ⟨rfl, fun s a b hrun => ?_⟩
  by_cases hle : a.toNat ≤ 2 ^ 69
  · obtain ⟨v, hv, hvalue⟩ := invExpQ_of_le hle
    simp only [hle, if_true, ← hvalue, BitVec.ofNat_toNat, BitVec.setWidth_eq]
    exact exec_completes_ok (i := .invExp) hrun hv
  · simp only [hle, if_false]
    exact exec_completes_failure (i := .invExp) hrun (invExpQ_of_gt (Nat.not_le.mp hle))

/-- Settles O59: the bounds of the product, its lower end attained, and the domain test. -/
theorem invExpStaysInItsBounds : Obligations.InvExpStaysInItsBounds := by
  refine ⟨fun a ha => ?_, ?_, fun a => invExpQ_of_gt⟩
  · obtain ⟨v, hv, hvalue⟩ := invExpQ_of_le ha
    exact ⟨v, hv, hvalue ▸ le_refInvExp ha, hvalue ▸ refInvExp_le_one a.toNat⟩
  · have hnat : (BitVec.ofNat 256 (2 ^ 69 - 1)).toNat = 2 ^ 69 - 1 := by decide
    obtain ⟨v, hv, hvalue⟩ := invExpQ_of_le (hnat.trans_le (by decide))
    rw [hnat, refInvExp_allOnes] at hvalue
    rw [hv, BitVec.eq_of_toNat_eq (y := 0x3908C) hvalue]

end Sys2Proof.Machine
end

section
/-! PROOFS. Host accesses (spec/44_derived.md R171, R180 to R184), what a completion leaves standing
(R185), and `INVPOW` (R176). An access names a channel and a register; a channel that is neither
busy nor requesting is changed by a reset and by the writes addressed to it alone. -/

namespace Sys2Proof.Machine

/-! ### What a write does to a channel -/

section
variable {ch : Channel} {r : BitVec 3} {v : Word}

/-- A channel that accepts writes takes the value of `OPA` (R180). -/
theorem Channel.writeReg_opa (ha : ch.status.accepts = true) :
    ch.writeReg regOPA v = { ch with opa := v } := by
  simp [Channel.writeReg, ha, regOPA]

/-- A channel that accepts writes takes the value of `OPB` (R180). -/
theorem Channel.writeReg_opb (ha : ch.status.accepts = true) :
    ch.writeReg regOPB v = { ch with opb := v } := by
  simp [Channel.writeReg, ha, regOPB]

/-- A write of `RES`, `STATUS` or a reserved number leaves the channel, whatever its condition
(R182). -/
theorem Channel.writeReg_readOnly (hr : 3 ≤ r.toNat) : ch.writeReg r v = ch := by
  unfold Channel.writeReg
  split
  · split
    · omega
    · omega
    · omega
    · rfl
  · rfl

/-- Only a write of `CMD` touches the outcome a channel holds (R180, R182). -/
theorem Channel.writeReg_keeps_outcome (hr : r ≠ regCMD) :
    (ch.writeReg r v).res = ch.res ∧ (ch.writeReg r v).status = ch.status := by
  unfold Channel.writeReg
  split
  · split
    · exact ⟨rfl, rfl⟩
    · exact ⟨rfl, rfl⟩
    · rename_i htwo
      exact absurd (BitVec.eq_of_toNat_eq htwo) hr
    · exact ⟨rfl, rfl⟩
  · exact ⟨rfl, rfl⟩

/-- `BUSY = 0` and `FAULT = 0` is the condition under which a channel accepts writes (R180). -/
theorem Status.accepts_iff {st : Status} :
    st.accepts = true ↔ st.busy = false ∧ st.fault = false := by
  simp [Status.accepts]

end

/-! ### What a read gives -/

/-- The value of a read, as a choice by register number (R183). -/
theorem Channel.readReg_eq_ite (ch : Channel) (r : BitVec 3) :
    ch.readReg r =
      if r = 0 then ch.opa else if r = 1 then ch.opb
      else if r = 2 then BitVec.ofNat 256 ch.cmd.toNat else if r = 3 then ch.res
      else if r = 4 then BitVec.ofNat 256 ch.status.byte.toNat else 0 := by
  have hreg : r = 0 ∨ r = 1 ∨ r = 2 ∨ r = 3 ∨ r = 4 ∨ r = 5 ∨ r = 6 ∨ r = 7 := by
    revert r
    decide
  rcases hreg with rfl | rfl | rfl | rfl | rfl | rfl | rfl | rfl <;>
    simp [Channel.readReg, BitVec.ofNat_toNat]

/-! ### A step that takes a host access -/

section
variable {s : State} {c : Nat} {r : BitVec 3} {ch : Channel} {v : Word} {rest : List Event}

/-- A write addressed to an existing channel is the write of its register (R61, R180). -/
theorem step_write (hp : s.pending = .write (8 * c + r.toNat) v :: rest)
    (hc : s.channels[c]? = some ch) :
    step s = .next (State.setChannel { s with pending := rest } c (ch.writeReg r v)) := by
  obtain ⟨hi, hr⟩ := index_of_register c r
  simp only [step_of_event hp, State.takeEvent, State.hostWrite, hi, hr, hc]

/-- A write that leaves its channel leaves the machine; only the input is gone (R182, R184). -/
theorem step_write_ignored (hp : s.pending = .write (8 * c + r.toNat) v :: rest)
    (hc : s.channels[c]? = some ch) (hw : ch.writeReg r v = ch) :
    step s = .next { s with pending := rest } := by
  have hset : s.channels.set c ch = s.channels := by
    obtain ⟨_, rfl⟩ := List.getElem?_eq_some_iff.mp hc
    exact List.set_getElem_self _
  rw [step_write hp hc, hw, State.setChannel, hset]

/-- A read of an existing channel hands the host the register and changes nothing else (R183). -/
theorem step_read (hp : s.pending = .read (8 * c + r.toNat) :: rest)
    (hc : s.channels[c]? = some ch) :
    step s = .next { s with pending := rest, readData := ch.readReg r } := by
  obtain ⟨hi, hr⟩ := index_of_register c r
  simp only [step_of_event hp, State.takeEvent, State.hostRead, hi, hr, hc]

end

/-! ### A channel that is neither busy nor requesting -/

section
variable {s t : State} {c d : Nat} {ch : Channel}

/-- Replacing a channel that differs from the one at `c` leaves that one (R10). -/
theorem State.setChannel_keeps_different {ch' : Channel} (hc : s.channels[c]? = some ch)
    (hd : s.channels[d]? = some ch') (hne : ch ≠ ch') (new : Channel) :
    (s.setChannel d new).channels[c]? = some ch := by
  have hcd : c ≠ d := by
    rintro rfl
    exact hne (Option.some.inj (hc.symm.trans hd))
  exact (State.setChannel_getElem?_ne hcd new).trans hc

/-- The sequencer's turn, whichever channel it is for, leaves a channel that is not busy (R172). -/
theorem State.runChannel_keeps_not_busy (hc : s.channels[c]? = some ch)
    (hb : ch.status.busy = false) (h : s.runChannel d = .next t) : t.channels[c]? = some ch := by
  obtain ⟨ch', hd, ⟨_, rfl⟩ | ⟨hb', rfl⟩⟩ := State.runChannel_next h
  · exact hc
  · have hne : ch ≠ ch' := by
      rintro rfl
      simp [hb] at hb'
    exact State.setChannel_keeps_different hc hd hne _

/-- What an input can do to a channel that is neither busy nor requesting: a reset aside, nothing
but the write addressed to it. -/
theorem State.takeEvent_at_rest {e : Event} (hc : s.channels[c]? = some ch)
    (hb : ch.status.busy = false) (hq : ch.requesting = false) (he : e ≠ .reset)
    (h : s.takeEvent e = .next t) :
    t.channels[c]? = some ch ∨
    ∃ index v, e = .write index v ∧ indexChannel index = c ∧
      t.channels[c]? = some (ch.writeReg (indexReg index) v) := by
  cases e with
  | write index v =>
    obtain ⟨ch', hd, rfl⟩ := State.hostWrite_next h
    rcases eq_or_ne c (indexChannel index) with rfl | hne
    · obtain rfl := Option.some.inj (hc.symm.trans hd)
      exact .inr ⟨index, v, rfl, rfl, State.setChannel_getElem?_self hc _⟩
    · exact .inl ((State.setChannel_getElem?_ne hne _).trans hc)
  | read index =>
    obtain ⟨_, _, rfl⟩ := State.hostRead_next h
    exact .inl hc
  | wait d =>
    obtain ⟨_, _, ⟨_, rfl⟩ | ⟨_, d', hd', _⟩ | ⟨_, _, _, rfl⟩⟩ := State.waitFor_next h
    · exact .inl hc
    · exact .inl (State.runChannel_keeps_not_busy
        (s := { s with pending := .wait d :: s.pending }) hc hb hd')
    · exact .inl hc
  | complete d => exact .inl (State.runChannel_keeps_not_busy hc hb h)
  | advance d =>
    obtain ⟨ch', hd, ⟨_, rfl⟩ | ⟨hb', rfl⟩⟩ := State.advance_next h
    · exact .inl hc
    · have hne : ch ≠ ch' := by
        rintro rfl
        simp [hb] at hb'
      exact .inl (State.setChannel_keeps_different hc hd hne _)
  | grant =>
    rcases State.grantOne_next h with ⟨_, rfl⟩ | ⟨d, ch', _, hd, hq', rfl⟩
    · exact .inl hc
    · have hne : ch ≠ ch' := by
        rintro rfl
        simp [hq] at hq'
      exact .inl (State.setChannel_keeps_different hc hd hne _)
  | reset => exact absurd rfl he

/-- The same of a step, where the inputs may also be none. -/
theorem step_at_rest (hc : s.channels[c]? = some ch) (hb : ch.status.busy = false)
    (hq : ch.requesting = false) (hreset : s.pending.head? ≠ some .reset) (h : step s = .next t) :
    t.channels[c]? = some ch ∨
    ∃ index v, s.pending.head? = some (.write index v) ∧ indexChannel index = c ∧
      t.channels[c]? = some (ch.writeReg (indexReg index) v) := by
  rcases step_next h with ⟨_, _, rfl⟩ | ⟨_, d, _, hd⟩ | ⟨e, rest, hp, he⟩
  · exact .inl hc
  · exact .inl (State.runChannel_keeps_not_busy hc hb hd)
  · rw [hp, List.head?_cons, Option.some_inj.ne] at hreset
    rw [hp, List.head?_cons]
    rcases State.takeEvent_at_rest (s := { s with pending := rest }) hc hb hq hreset he with
      hsame | ⟨index, v, rfl, hwrite⟩
    · exact .inl hsame
    · exact .inr ⟨index, v, rfl, hwrite⟩

/-- Under the engine invariant a channel that is not busy is not requesting (R54). -/
theorem Channel.EngineInv.not_requesting (hch : ch.EngineInv) (hb : ch.status.busy = false) :
    ch.requesting = false := by
  obtain ⟨_, _, hquiet⟩ := hch
  simp [Channel.requesting, hquiet hb]

end

/-- An index is made of its channel and its register number (R61). -/
theorem index_eq_fields (index : Nat) :
    8 * indexChannel index + (indexReg index).toNat = index := by
  simp only [indexChannel, indexReg, BitVec.toNat_ofNat]
  omega

/-! ### The composition of `INVPOW` -/

section
variable {a p l x : Word}

/-- A logarithm that fails makes `INVPOW` fail with it (R176). -/
theorem invPowQ_of_lt (h : a.toNat < 2 ^ 64) : invPowQ a p = .error (.failure .domainError) := by
  rw [invPowQ, log2Q_of_lt h]
  rfl

/-- After a logarithm that succeeds the two other stages remain (R176). -/
theorem invPowQ_of_log2Q (hlog : log2Q a = .ok l) : invPowQ a p = mulQ p l >>= invPow2Q := by
  rw [invPowQ, hlog]
  rfl

/-- A product that overflows makes `INVPOW` fail with it (R176). -/
theorem invPowQ_of_overflow (ha : 2 ^ 64 ≤ a.toNat)
    (hover : 2 ^ 320 ≤ p.toNat * refLog2 a.toNat) :
    invPowQ a p = .error (.failure .overflow) := by
  have hlog := log2Q_of_ge ha
  rw [← log2Q_ok hlog] at hover
  rw [invPowQ_of_log2Q hlog, mulQ_eq_overflow_iff.mpr hover]
  rfl

/-- Where both stages succeed `INVPOW` is `INVPOW2` of the floored product (R176). -/
theorem invPowQ_eq_invPow2Q (ha : 2 ^ 64 ≤ a.toNat)
    (hx : x.toNat = p.toNat * refLog2 a.toNat / 2 ^ 64) : invPowQ a p = invPow2Q x := by
  have hlog := log2Q_of_ge ha
  rw [← log2Q_ok hlog] at hx
  rw [invPowQ_of_log2Q hlog, mulQ_eq_ok_iff.mpr hx]
  rfl

end

/-! ### The statements -/

/-- Settles O16: the failures in the order of the stages, then the value of the last stage. -/
theorem invPowCompletesWithComposition : Obligations.InvPowCompletesWithComposition := by
  refine ⟨rfl, fun s a p hrun => ?_⟩
  by_cases ha : a.toNat < 2 ^ 64
  · simp only [ha, if_true]
    exact exec_completes_failure (i := .invPow) hrun (invPowQ_of_lt ha)
  have hge := Nat.not_lt.mp ha
  by_cases hover : 2 ^ 320 ≤ p.toNat * refLog2 a.toNat
  · simp only [ha, hover, if_true, if_false]
    exact exec_completes_failure (i := .invPow) hrun (invPowQ_of_overflow hge hover)
  obtain ⟨x, hx⟩ : ∃ x : Word, x.toNat = p.toNat * refLog2 a.toNat / 2 ^ 64 :=
    ⟨BitVec.ofNat 256 (p.toNat * refLog2 a.toNat / 2 ^ 64), by
      rw [BitVec.toNat_ofNat, Nat.mod_eq_of_lt (by omega)]⟩
  have hvalue := invPowQ_eq_invPow2Q hge hx
  by_cases hdomain : 41 ≤ x.toNat / 2 ^ 64
  · simp only [ha, hover, ← hx, hdomain, if_true, if_false]
    exact exec_completes_failure (i := .invPow) hrun (hvalue.trans (invPow2Q_of_ge hdomain))
  · obtain ⟨v, hv, hval⟩ := invPow2Q_of_lt (Nat.not_le.mp hdomain)
    simp only [ha, hover, ← hx, hdomain, if_false, ← hval, BitVec.ofNat_toNat,
      BitVec.setWidth_eq]
    exact exec_completes_ok (i := .invPow) hrun (hvalue.trans hv)

/-- Settles O36: the channel holds no request, so only a write addressed to it is left, and that is
not one of `CMD`. -/
theorem aResultPersistsUntilTheNextStart : Obligations.AResultPersistsUntilTheNextStart := by
  intro s t c ch hinv hc hb _ hreset hcmd h
  have hq := (State.forall_channels_at hinv hc).not_requesting hb
  rcases step_at_rest hc hb hq hreset h with hsame | ⟨index, v, hhead, rfl, hwrite⟩
  · exact ⟨ch, hsame, rfl, rfl⟩
  · have hreg : indexReg index ≠ regCMD := by
      intro hreg
      have hindex := index_eq_fields index
      rw [hreg] at hindex
      rw [← hindex] at hhead
      exact hcmd v hhead
    exact ⟨_, hwrite, Channel.writeReg_keeps_outcome hreg⟩

/-- Settles O19: the step is the start of the byte, in the place of the channel. -/
theorem commandWriteStartsACommand : Obligations.CommandWriteStartsACommand := by
  intro s c ch v rest hp hc hb hf
  refine ⟨_, ch.startCommand (v.setWidth 8), step_write_cmd hp hc hb hf,
    State.setChannel_getElem?_self hc _, ?_, fun d hd => State.setChannel_getElem?_ne hd _,
    rfl, rfl, rfl⟩
  simp [Channel.registers, Status.started, hf, BitVec.setWidth_eq_extractLsb']

/-- Settles O20: the channel accepts the write, and each operand has its number. -/
theorem operandWritesChangeOneRegister : Obligations.OperandWritesChangeOneRegister := by
  intro s c ch v rest hc hb hf
  have ha := Status.accepts_iff.mpr ⟨hb, hf⟩
  refine ⟨fun hp => ?_, fun hp => ?_⟩
  · rw [step_write (r := regOPA) hp hc, Channel.writeReg_opa ha]
    rfl
  · rw [step_write (r := regOPB) hp hc, Channel.writeReg_opb ha]
    rfl

/-- Settles O21: such a channel is left by every write. -/
theorem writesWhileBusyOrFaultedAreIgnored : Obligations.WritesWhileBusyOrFaultedAreIgnored :=
  fun _ _ r _ v _ hp hc h => step_write_ignored hp hc (Channel.writeReg_ignored r v h)

/-- Settles O22: such a register is left by every write. -/
theorem writesToReadOnlyRegistersAreIgnored : Obligations.WritesToReadOnlyRegistersAreIgnored :=
  fun _ _ _ _ _ _ hp hc hr => step_write_ignored hp hc (Channel.writeReg_readOnly hr)

/-- Settles O23: the value by register number; while busy `RES` is 0 by R17 (d). -/
theorem readsReturnTheRegister : Obligations.ReadsReturnTheRegister := by
  intro s c r ch rest hp hc
  have hread := step_read hp hc
  refine ⟨by rw [hread, Channel.readReg_eq_ite], ?_⟩
  rintro rfl hinv hb
  obtain ⟨_, _, _, hbusy, _⟩ := State.forall_channels_at hinv hc
  obtain ⟨hres, _⟩ := hbusy hb
  rw [hread, Channel.readReg_eq_ite]
  simp [hres]

end Sys2Proof.Machine
end

section
/-! PROOFS. Failure code 3 (spec/60_exceptions.md R202) and the reset input (R211). Multiplications and
ROM reads never report a zero divisor, sequencing adds no failure of its own, and the log2 engine is
known to answer its logarithm; so among the commands only `DIV` is left. -/

namespace Sys2Proof

/-! ### A byte that decodes is an encoding -/

/-- The opcode map sends one value of `OP` to each command (R71). -/
theorem eq_opcode_of_opcodeOf {op : BitVec 4} {i : Instr} (h : opcodeOf op = some i) :
    op = i.opcode := by
  revert op
  cases i <;> decide

/-- Only the encoding of a command decodes to it (R70, R71). -/
theorem eq_encode_of_decode {b : Byte} {i : Instr} (h : decode b = .ok i) : b = encode i := by
  unfold decode at h
  dsimp only at h
  split at h
  · rename_i hclear
    split at h
    · rename_i j hop
      injection h with h
      subst h
      have hrsv : (Command.ofByte b).rsv = 0 := by
        simpa [Command.reservedClear] using hclear
      have hfields := byte_toNat_eq_fields b
      rw [eq_opcode_of_opcodeOf hop, hrsv] at hfields
      apply BitVec.eq_of_toNat_eq
      rw [hfields]
      cases j <;> rfl
    · cases h
  · cases h

end Sys2Proof

namespace Sys2Proof.Machine

/-! ### From a code to its failure -/

/-- Distinct failures have distinct codes (R200). -/
theorem Failure.code_injective : Function.Injective Failure.code := by
  intro f g
  cases f <;> cases g <;> decide

/-- Code 0 means that there is no failure (R200). -/
theorem Failure.code_ne_zero (f : Failure) : f.code ≠ 0 := by
  cases f <;> decide

/-- `Exec` reports a failure's code only if the evaluation ended with that failure (R173). -/
theorem byteValue_of_specExec_code {c : Byte} {a b v : Word} {f : Failure}
    (h : specExec c a b = some (f.code, v)) : byteValue c a b = .error (.failure f) := by
  unfold specExec at h
  split at h
  · injection h with h
    injection h with hcode
    exact absurd hcode.symm f.code_ne_zero
  · rename_i g hg
    injection h with h
    injection h with hcode
    rw [hg, Failure.code_injective hcode]
  · cases h

/-! ### Evaluations that report no zero divisor -/

/-- The evaluation does not end with `DivisionByZero`. -/
def NoZeroDivisor {α : Type} (x : Except Abort α) : Prop :=
  x ≠ .error (.failure .divisionByZero)

section
variable {α β : Type} {t : Table}

theorem noZeroDivisor_ok (v : α) : NoZeroDivisor (.ok v) := nofun

theorem noZeroDivisor_overflow : NoZeroDivisor (α := α) (.error (.failure .overflow)) := nofun

theorem noZeroDivisor_domainError : NoZeroDivisor (α := α) (.error (.failure .domainError)) := nofun

/-- Sequencing adds no failure of its own (R178). -/
theorem NoZeroDivisor.bind {x : Except Abort α} {f : α → Except Abort β}
    (hx : NoZeroDivisor x) (hf : ∀ v, NoZeroDivisor (f v)) : NoZeroDivisor (x >>= f) := by
  rcases x with e | v
  · intro h
    injection h with h
    exact hx (congrArg Except.error h)
  · exact hf v

/-- A multiplication fails with `Overflow` only (R91). -/
theorem noZeroDivisor_mulQ (a b : Word) : NoZeroDivisor (mulQ a b) := by
  rcases Nat.lt_or_ge (a.toNat * b.toNat / 2 ^ 64) (2 ^ 256) with hlt | hge
  · rw [mulQ_of_fits hlt]
    exact noZeroDivisor_ok _
  · rw [mulQ_of_overflow hge]
    exact noZeroDivisor_overflow

/-- A read fails with a violated bound only (R42). -/
theorem noZeroDivisor_rom (t : Table) (i : Nat) : NoZeroDivisor (rom t i) := by
  unfold NoZeroDivisor rom memRead
  split <;> nofun

/-- The fraction loop reads and multiplies, whatever the table. -/
theorem noZeroDivisor_fracLoop (f : BitVec 64) (n i : Nat) (r : Word) :
    NoZeroDivisor (fracLoop t f n i r) := by
  induction n generalizing i r with
  | zero => exact noZeroDivisor_ok r
  | succ n ih =>
    unfold fracLoop
    split
    · exact (noZeroDivisor_rom t i).bind fun w => (noZeroDivisor_mulQ r w).bind (ih (i + 1))
    · exact ih (i + 1) r

/-- The integer loop reads and multiplies, whatever the table. -/
theorem noZeroDivisor_intLoop (k n j : Nat) (r : Word) : NoZeroDivisor (intLoop t k n j r) := by
  induction n generalizing j r with
  | zero => exact noZeroDivisor_ok r
  | succ n ih =>
    unfold intLoop
    split
    · exact (noZeroDivisor_rom t j).bind fun w => (noZeroDivisor_mulQ r w).bind (ih (j + 1))
    · exact ih (j + 1) r

end

/-! ### The engines -/

/-- The divisions of the log2 engine succeed, their divisors being table entries (R115): past the
domain test it always answers its logarithm. -/
theorem noZeroDivisor_log2Q (a : Word) : NoZeroDivisor (log2Q a) := by
  rcases Nat.lt_or_ge a.toNat (2 ^ 64) with hlt | hge
  · rw [log2Q_of_lt hlt]
    exact noZeroDivisor_domainError
  · rw [log2Q_of_ge hge]
    exact noZeroDivisor_ok _

theorem noZeroDivisor_lnQ (a : Word) : NoZeroDivisor (lnQ a) :=
  (noZeroDivisor_log2Q a).bind fun l =>
    (noZeroDivisor_rom tblConst 0).bind fun c => noZeroDivisor_mulQ l c

theorem noZeroDivisor_pow2Q (x : Word) : NoZeroDivisor (pow2Q x) := by
  unfold pow2Q
  split
  · exact noZeroDivisor_overflow
  · exact (noZeroDivisor_fracLoop _ _ _ _).bind fun r => noZeroDivisor_mulQ _ r

theorem noZeroDivisor_invPow2Q (x : Word) : NoZeroDivisor (invPow2Q x) := by
  unfold invPow2Q
  split
  · exact noZeroDivisor_domainError
  · exact (noZeroDivisor_fracLoop _ _ _ _).bind fun _ => noZeroDivisor_ok _

theorem noZeroDivisor_expQ (a : Word) : NoZeroDivisor (expQ a) := by
  unfold expQ
  split
  · exact noZeroDivisor_overflow
  · exact (noZeroDivisor_fracLoop _ _ _ _).bind fun r => noZeroDivisor_intLoop _ _ _ r

theorem noZeroDivisor_invExpQ (a : Word) : NoZeroDivisor (invExpQ a) := by
  unfold invExpQ
  split
  · exact noZeroDivisor_domainError
  · exact (noZeroDivisor_fracLoop _ _ _ _).bind fun r => noZeroDivisor_intLoop _ _ _ r

theorem noZeroDivisor_powQ (a p : Word) : NoZeroDivisor (powQ a p) :=
  (noZeroDivisor_log2Q a).bind fun l => (noZeroDivisor_mulQ p l).bind noZeroDivisor_pow2Q

theorem noZeroDivisor_invPowQ (a p : Word) : NoZeroDivisor (invPowQ a p) :=
  (noZeroDivisor_log2Q a).bind fun l => (noZeroDivisor_mulQ p l).bind noZeroDivisor_invPow2Q

/-- `divQ` reports `DivisionByZero` for a zero divisor only (R97). -/
theorem noZeroDivisor_divQ {a b : Word} (hb : b ≠ 0) : NoZeroDivisor (divQ a b) := by
  rcases Nat.lt_or_ge a.toNat (2 ^ 192) with hlt | hge
  · rw [divQ_eq_ok hb hlt]
    exact noZeroDivisor_ok _
  · rw [divQ_of_overflow hb hge]
    exact noZeroDivisor_overflow

/-- A command that ends with `DivisionByZero` is `DIV` on a zero divisor (R202). -/
theorem commandValue_divisionByZero {i : Instr} {a b : Word}
    (h : commandValue i a b = .error (.failure .divisionByZero)) : i = .div ∧ b = 0 := by
  cases i with
  | div => exact ⟨rfl, by_contra fun hb => noZeroDivisor_divQ hb h⟩
  | mul => exact absurd h (noZeroDivisor_mulQ a b)
  | log2 => exact absurd h (noZeroDivisor_log2Q a)
  | ln => exact absurd h (noZeroDivisor_lnQ a)
  | pow2 => exact absurd h (noZeroDivisor_pow2Q a)
  | invPow2 => exact absurd h (noZeroDivisor_invPow2Q a)
  | exp => exact absurd h (noZeroDivisor_expQ a)
  | invExp => exact absurd h (noZeroDivisor_invExpQ a)
  | pow => exact absurd h (noZeroDivisor_powQ a b)
  | invPow => exact absurd h (noZeroDivisor_invPowQ a b)

/-! ### The statements -/

/-- Settles O18: code 3 is that of `DivisionByZero`, a rejected byte ends with another failure, and
among the commands only `DIV` ends with it. -/
theorem divisionByZeroComesOnlyFromDiv : Obligations.DivisionByZeroComesOnlyFromDiv := by
  intro c a b v h
  have hvalue := byteValue_of_specExec_code (f := .divisionByZero) h
  rcases hdecode : decode c with e | i
  · rw [byteValue_of_rejected ⟨e, hdecode⟩] at hvalue
    cases hvalue
  · simp only [byteValue, hdecode] at hvalue
    obtain ⟨rfl, hb⟩ := commandValue_divisionByZero hvalue
    exact ⟨eq_encode_of_decode hdecode, hb⟩

/-- Every channel after the reset input is a reset channel, whatever it was before (R211). -/
theorem State.eq_reset_of_mem_resetInput {s : State} {ch : Channel}
    (h : ch ∈ s.resetInput.channels) : ch = Channel.reset := by
  obtain ⟨_, _, rfl⟩ := List.mem_map.mp h
  rfl

/-- Settles O26: the step is the reset of the list of channels, one by one. -/
theorem resetInputRestoresEveryChannel : Obligations.ResetInputRestoresEveryChannel := by
  intro s rest hp
  have hstep : step s = .next (State.resetInput { s with pending := rest }) := step_of_event hp
  refine ⟨_, hstep, step_channels_length hstep, rfl, fun ch hch => ?_⟩
  rw [State.eq_reset_of_mem_resetInput hch]
  rfl

end Sys2Proof.Machine
end

section
/-! PROOFS. The iterations of the hidden engines (spec/10_state.md R18, spec/44_derived.md R172,
R178). A hidden state owes a pair of code and value: what is left to compute from it. An iteration
keeps what is owed and comes nearer the end, so an engine started on a command owes the pair of
`Exec`, and at its end holds it. -/

namespace Sys2Proof.Machine

/-! ### The exact operations as the engines perform them -/

section
variable {a b : Word}

/-- The 512-bit product of two words is exact (R92). -/
theorem toNat_fullProduct (a b : Word) :
    (a.setWidth 512 * b.setWidth 512).toNat = a.toNat * b.toNat := by
  have hlt : a.toNat * b.toNat < 2 ^ 512 := by
    rw [show 512 = 256 + 256 from rfl, Nat.pow_add]
    exact Nat.mul_lt_mul'' a.isLt b.isLt
  simp only [BitVec.toNat_mul, BitVec.toNat_setWidth_of_le (show 256 ≤ 512 by decide),
    Nat.mod_eq_of_lt hlt]

/-- Bits 511:320 of the product are 0 exactly when it is below `2^320` (R92). -/
theorem fullProduct_high_eq_zero_iff :
    (a.setWidth 512 * b.setWidth 512).extractLsb' 320 192 = 0 ↔ a.toNat * b.toNat < 2 ^ 320 := by
  have hlt := (a.setWidth 512 * b.setWidth 512).isLt
  rw [← BitVec.toNat_inj, BitVec.extractLsb'_toNat, Nat.shiftRight_eq_div_pow]
  rw [toNat_fullProduct] at hlt ⊢
  change _ = 0 ↔ _
  omega

/-- Settles O53: below `2^320` bits 319:64 are the whole shifted product. -/
theorem multiplyUsesTheFullProduct : Obligations.MultiplyUsesTheFullProduct := by
  intro a b
  dsimp only
  split
  · rename_i hhigh
    have hlt := fullProduct_high_eq_zero_iff.mp hhigh
    rw [mulQ_eq_ok_iff, BitVec.extractLsb'_toNat, Nat.shiftRight_eq_div_pow, toNat_fullProduct]
    omega
  · rename_i hhigh
    exact mulQ_eq_overflow_iff.mpr (Nat.not_lt.mp (mt fullProduct_high_eq_zero_iff.mpr hhigh))

/-- The multiplier of an engine answers `mulQ` (R91, R92). -/
theorem mulQ_eq_product (h : Hidden) (a b : Word) :
    mulQ a b = if (h.multiply a b).productFits then .ok (h.multiply a b).product
      else .error (.failure .overflow) := by
  rw [multiplyUsesTheFullProduct a b]
  simp only [Hidden.productFits, Hidden.product, Hidden.multiply_prod, beq_iff_eq]

/-- The divider of an engine answers `divQ` on its domain (R96). -/
theorem divQ_eq_shiftDivide (hb : b ≠ 0) (ha : a.toNat < 2 ^ 192) :
    divQ a b = .ok (shiftDivide a b) := by
  refine divQ_eq_ok_iff.mpr ⟨hb, ha, ?_⟩
  rw [shiftDivide, BitVec.toNat_udiv, BitVec.toNat_shiftLeft, Nat.shiftLeft_eq,
    Nat.mod_eq_of_lt (by omega)]

end

/-! ### What is left to compute -/

/-- The pair `Exec` reports for an evaluation (R173). -/
def execPair (r : Except Abort Word) : Option (BitVec 3 × Word) :=
  match r with
  | .ok v => some (0, v)
  | .error (.failure f) => some (f.code, 0)
  | .error .tableBound => none

theorem specExec_eq_execPair (c : Byte) (a b : Word) :
    specExec c a b = execPair (byteValue c a b) := by
  unfold specExec execPair
  rcases byteValue c a b with (f | _) | v <;> rfl

/-- What command `i` computes from the logarithm `l` of its first operand (R178). -/
def valueFromLog (i : Instr) (b l : Word) : Except Abort Word :=
  match i with
  | .ln => rom tblConst 0 >>= mulQ l
  | .pow => mulQ b l >>= pow2Q
  | .invPow => mulQ b l >>= invPow2Q
  | .mul | .div | .log2 | .pow2 | .invPow2 | .exp | .invExp => .ok l

/-- What command `i` computes from the multiplier's result (R178). -/
def valueFromProduct (i : Instr) (x : Word) : Except Abort Word :=
  match i with
  | .pow => pow2Q x
  | .invPow => invPow2Q x
  | .mul | .div | .log2 | .ln | .pow2 | .invPow2 | .exp | .invExp => .ok x

/-- What the pow2 engine computes from an exponent, in its two forms (R134, R140). -/
def valueOfPower (i : Instr) (x : Word) : Except Abort Word :=
  match i with
  | .invPow2 | .invPow => invPow2Q x
  | .mul | .div | .log2 | .ln | .pow2 | .exp | .invExp | .pow => pow2Q x

/-- The integer contribution of the pow2 engine, in its two forms (R134, R140). -/
def scaleBy (i : Instr) (k : Nat) (r : Word) : Except Abort Word :=
  match i with
  | .invPow2 | .invPow => .ok (r >>> k)
  | .mul | .div | .log2 | .ln | .pow2 | .exp | .invExp | .pow => mulQ (oneQ <<< k) r

/-- The pair that command `i` on `a`, `b` still owes in the hidden state `h`. -/
def Hidden.owed (h : Hidden) (i : Instr) (a b : Word) : Option (BitVec 3 × Word) :=
  match h.phase with
  | .start => execPair (commandValue i a b)
  | .log2 => execPair (log2Loop (20 - h.idx.toNat) h.idx.toNat h.acc h.frac >>= fun f =>
      valueFromLog i b (joinParts h.k.toNat f))
  | .lnConst => execPair (rom tblConst 0 >>= mulQ h.acc)
  | .narrow => execPair (if h.productFits then valueFromProduct i h.product
      else .error (.failure .overflow))
  | .pow2 => execPair (fracLoop (pow2Table i) h.frac (20 - h.idx.toNat) h.idx.toNat h.acc >>=
      scaleBy i h.k.toNat)
  | .expFrac => execPair (fracLoop (expFracTable i) h.frac (20 - h.idx.toNat) h.idx.toNat h.acc >>=
      intLoop (expIntTable i) h.k.toNat 8 0)
  | .expInt => execPair (intLoop (expIntTable i) h.k.toNat (8 - h.idx.toNat) h.idx.toNat h.acc)
  | .finished e => some (e, h.acc)

/-- The phase is one that command `i` enters, its index is in the range of its loop, and the domain
tests the command passed on the way bound `ACC` and `K` (R52, R113, R162). -/
def Hidden.InBounds (h : Hidden) (i : Instr) : Prop :=
  match h.phase with
  | .start | .finished _ => True
  | .log2 => i ∈ [.log2, .ln, .pow, .invPow] ∧ h.idx.toNat < 20 ∧ h.acc.toNat < 2 ^ 192
  | .lnConst => i = .ln
  | .narrow => i ∈ [.mul, .ln, .pow, .invPow]
  | .pow2 => i ∈ [.pow2, .invPow2, .pow, .invPow] ∧ h.idx.toNat ≤ 20
  | .expFrac => i ∈ [.exp, .invExp] ∧ h.idx.toNat ≤ 20 ∧ (i = .invExp → h.k.toNat < 2 ^ 6)
  | .expInt => i ∈ [.exp, .invExp] ∧ h.idx.toNat ≤ 8 ∧ (i = .invExp → h.k.toNat < 2 ^ 6)

/-- A bound on the iterations to the end (log 6). -/
def Hidden.iterationsLeft (h : Hidden) (i : Instr) : Nat :=
  match h.phase with
  | .start => 43
  | .log2 => 42 - h.idx.toNat
  | .lnConst => 2
  | .narrow => if i = .pow ∨ i = .invPow then 22 else 1
  | .pow2 => 21 - h.idx.toNat
  | .expFrac => 30 - h.idx.toNat
  | .expInt => 9 - h.idx.toNat
  | .finished _ => 0

/-- The hidden state is in bounds, owes `r`, and is at most `n` iterations from the end. -/
structure Hidden.OnCourse (h : Hidden) (i : Instr) (a b : Word) (r : Option (BitVec 3 × Word))
    (n : Nat) : Prop where
  inBounds : h.InBounds i
  owed : h.owed i a b = r
  near : h.iterationsLeft i ≤ n

/-! ### The ends of an engine's path and the entries into its phases -/

section
variable {h : Hidden} {i : Instr} {a b x : Word} {r : Option (BitVec 3 × Word)} {n : Nat}

theorem Hidden.fail_onCourse (h : Hidden) (f : Failure) :
    (h.fail f).OnCourse i a b (execPair (.error (.failure f))) n :=
  ⟨trivial, rfl, Nat.zero_le n⟩

theorem Hidden.finish_onCourse (h : Hidden) (v : Word) :
    (h.finish v).OnCourse i a b (execPair (.ok v)) n :=
  ⟨trivial, rfl, Nat.zero_le n⟩

/-- At no iterations from the end the engine has finished and holds what it owes. -/
theorem Hidden.OnCourse.finished (hc : h.OnCourse i a b r 0) :
    ∃ e, h.phase = .finished e ∧ r = some (e, h.acc) := by
  obtain ⟨hin, howed, hnear⟩ := hc
  rcases hp : h.phase with _ | _ | _ | _ | _ | _ | _ | e <;>
    simp only [Hidden.iterationsLeft, hp, Hidden.InBounds] at hnear hin
  case finished => exact ⟨e, rfl, by simpa only [Hidden.owed, hp] using howed.symm⟩
  case narrow => split at hnear <;> omega
  all_goals omega

/-- The integer part of an exponent below `2^72` fits `K`. -/
theorem toNat_ofNat_intPart (hx : x.toNat < 2 ^ 72) :
    (BitVec.ofNat 8 (intPart x)).toNat = intPart x := by
  rw [BitVec.toNat_ofNat, intPart, Nat.mod_eq_of_lt (by omega)]

/-- A split exponent owes its fractional product, scaled (R134, R140). -/
theorem Hidden.split_pow2_onCourse (h : Hidden) (hx : x.toNat < 2 ^ 72)
    (hi : i ∈ [.pow2, .invPow2, .pow, .invPow]) (hn : 21 ≤ n) :
    (h.split x .pow2).OnCourse i a b (execPair
      (fracLoop (pow2Table i) (fracPart x) 20 0 oneQ >>= scaleBy i (intPart x))) n :=
  ⟨⟨hi, by simp [Hidden.split]⟩, by simp [Hidden.owed, Hidden.split, toNat_ofNat_intPart hx], hn⟩

/-- The entry into the pow2 engine owes the power of two, in both forms (R131, R139). -/
theorem Hidden.enterPow2_onCourse (h : Hidden) (x : Word)
    (hi : i ∈ [.pow2, .invPow2, .pow, .invPow]) (hn : 21 ≤ n) :
    (h.enterPow2 i x).OnCourse i a b (execPair (valueOfPower i x)) n := by
  have hleft (htable : pow2Table i = tblLog2)
      (hscale : scaleBy i = fun k r => mulQ (oneQ <<< k) r) :
      (if 192 * 2 ^ 64 ≤ x.toNat then h.fail .overflow else h.split x .pow2).OnCourse i a b
        (execPair (pow2Q x)) n := by
    unfold pow2Q
    split
    · exact h.fail_onCourse _
    · have hc := h.split_pow2_onCourse (a := a) (b := b) (x := x) (by omega) hi hn
      rwa [htable, hscale] at hc
  have hright (htable : pow2Table i = tblInvLog2) (hscale : scaleBy i = fun k r => .ok (r >>> k)) :
      (if 41 ≤ intPart x then h.fail .domainError else h.split x .pow2).OnCourse i a b
        (execPair (invPow2Q x)) n := by
    unfold invPow2Q
    split
    · exact h.fail_onCourse _
    · rename_i hlt
      have hc := h.split_pow2_onCourse (a := a) (b := b) (x := x)
        (by unfold intPart at hlt; omega) hi hn
      rwa [htable, hscale] at hc
  cases i with
  | pow2 | pow => exact hleft rfl rfl
  | invPow2 | invPow => exact hright rfl rfl
  | _ => simp at hi

/-- A split exponent owes the product of its selected factors (R152, R160). -/
theorem Hidden.split_expFrac_onCourse (h : Hidden) (hx : x.toNat < 2 ^ 72)
    (hi : i ∈ [.exp, .invExp]) (hk : i = .invExp → x.toNat ≤ 2 ^ 69) (hn : 30 ≤ n) :
    (h.split x .expFrac).OnCourse i a b (execPair
      (fracLoop (expFracTable i) (fracPart x) 20 0 oneQ >>=
        intLoop (expIntTable i) (intPart x) 8 0)) n := by
  refine ⟨⟨hi, by simp [Hidden.split], fun hinv => ?_⟩,
    by simp [Hidden.owed, Hidden.split, toNat_ofNat_intPart hx], hn⟩
  have hle := hk hinv
  change (BitVec.ofNat 8 (intPart x)).toNat < 2 ^ 6
  rw [toNat_ofNat_intPart hx, intPart]
  omega

/-- The entry into the log2 engine owes what the command computes from the logarithm (R111 to
R114). -/
theorem Hidden.enterLog2_onCourse (h : Hidden) (x : Word)
    (hi : i ∈ [.log2, .ln, .pow, .invPow]) (hn : 42 ≤ n) :
    (h.enterLog2 x).OnCourse i a b (execPair (log2Q x >>= valueFromLog i b)) n := by
  unfold Hidden.enterLog2 log2Q
  split
  · exact h.fail_onCourse _
  · have hk := log2_toNat_sub_le x
    have hmantissa := mantissa_lt x.toNat
    have hk8 : (BitVec.ofNat 8 (msb x - 64)).toNat = msb x - 64 := by
      rw [BitVec.toNat_ofNat, msb, Nat.mod_eq_of_lt (by omega)]
    refine ⟨⟨hi, by simp, ?_⟩, ?_, hn⟩
    · simp only [BitVec.toNat_ushiftRight, Nat.shiftRight_eq_div_pow, msb]
      omega
    · simp only [Hidden.owed, hk8, bind_assoc]
      rfl

/-- The first iteration owes the value of the command (R173). -/
theorem Hidden.begin_onCourse (h : Hidden) (hn : 42 ≤ n) :
    (h.begin i a b).OnCourse i a b (execPair (commandValue i a b)) n := by
  cases i with
  | mul =>
    refine ⟨by simp [Hidden.begin, Hidden.InBounds], ?_, (show 1 ≤ 42 by decide).trans hn⟩
    rw [commandValue, mulQ_eq_product h]
    rfl
  | div =>
    simp only [Hidden.begin, commandValue]
    split
    · rename_i hb
      rw [BitVec.eq_of_toNat_eq (y := 0) hb, divQ_of_zero]
      exact h.fail_onCourse _
    · rename_i hb
      have hb : b ≠ 0 := fun h0 => hb (by rw [h0]; rfl)
      split
      · rename_i ha
        rw [divQ_of_overflow hb ha]
        exact h.fail_onCourse _
      · rename_i ha
        rw [divQ_eq_shiftDivide hb (Nat.not_le.mp ha)]
        exact h.finish_onCourse _
  | log2 =>
    have hc := h.enterLog2_onCourse (i := .log2) (a := a) (b := b) a (by simp) hn
    rwa [show log2Q a >>= valueFromLog .log2 b = log2Q a from bind_pure _] at hc
  | ln => exact h.enterLog2_onCourse a (by simp) hn
  | pow => exact h.enterLog2_onCourse a (by simp) hn
  | invPow => exact h.enterLog2_onCourse a (by simp) hn
  | pow2 => exact Hidden.enterPow2_onCourse (i := .pow2) h a (by simp) (by omega)
  | invPow2 => exact Hidden.enterPow2_onCourse (i := .invPow2) h a (by simp) (by omega)
  | exp =>
    simp only [Hidden.begin, commandValue, expQ]
    split
    · exact h.fail_onCourse _
    · exact h.split_expFrac_onCourse (by omega) (by simp) nofun (by omega)
  | invExp =>
    simp only [Hidden.begin, commandValue, invExpQ]
    split
    · exact h.fail_onCourse _
    · exact h.split_expFrac_onCourse (by omega) (by simp) (fun _ => by omega) (by omega)

/-- After the log2 engine the command owes what it computes from the logarithm (R178). -/
theorem Hidden.afterLog2_onCourse (h : Hidden) (hi : i ∈ [.log2, .ln, .pow, .invPow])
    (hn : 22 ≤ n) :
    (h.afterLog2 i b).OnCourse i a b (execPair (valueFromLog i b h.logValue)) n := by
  have hmul (hpow : i = .pow ∨ i = .invPow)
      (hv : valueFromLog i b h.logValue = mulQ b h.logValue >>= valueFromProduct i) :
      Hidden.OnCourse { h.multiply b h.logValue with phase := .narrow } i a b
        (execPair (valueFromLog i b h.logValue)) n := by
    refine ⟨by rcases hpow with rfl | rfl <;> simp [Hidden.InBounds], ?_,
      by simpa [Hidden.iterationsLeft, hpow] using hn⟩
    rw [hv, mulQ_eq_product h]
    change execPair (if (h.multiply b h.logValue).productFits then
      valueFromProduct i (h.multiply b h.logValue).product else .error (.failure .overflow)) = _
    split <;> rfl
  cases i with
  | log2 => exact h.finish_onCourse _
  | ln => exact ⟨rfl, rfl, (show 2 ≤ 22 by decide).trans hn⟩
  | pow => exact hmul (.inl rfl) rfl
  | invPow => exact hmul (.inr rfl) rfl
  | _ => simp at hi

/-- After the multiplier the command owes what it computes from the product (R178). -/
theorem Hidden.afterNarrow_onCourse (h : Hidden) (hi : i ∈ [.mul, .ln, .pow, .invPow])
    (hn : i = .pow ∨ i = .invPow → 21 ≤ n) :
    (h.afterNarrow i).OnCourse i a b (execPair (if h.productFits then valueFromProduct i h.product
      else .error (.failure .overflow))) n := by
  unfold Hidden.afterNarrow
  split
  · cases i with
    | pow => exact h.enterPow2_onCourse _ (by simp) (hn (by simp))
    | invPow => exact h.enterPow2_onCourse _ (by simp) (hn (by simp))
    | mul => exact h.finish_onCourse _
    | ln => exact h.finish_onCourse _
    | _ => simp at hi
  · exact h.fail_onCourse _

/-- The integer contribution ends the pow2 engine (R134, R140). -/
theorem Hidden.scale_onCourse (h : Hidden) :
    (h.scale i).OnCourse i a b (execPair (scaleBy i h.k.toNat h.acc)) n := by
  have hleft : (if (h.multiply (oneQ <<< h.k.toNat) h.acc).productFits then
      (h.multiply (oneQ <<< h.k.toNat) h.acc).finish
        (h.multiply (oneQ <<< h.k.toNat) h.acc).product
      else (h.multiply (oneQ <<< h.k.toNat) h.acc).fail .overflow).OnCourse i a b
      (execPair (mulQ (oneQ <<< h.k.toNat) h.acc)) n := by
    rw [mulQ_eq_product h]
    split
    · exact Hidden.finish_onCourse _ _
    · exact Hidden.fail_onCourse _ _
  cases i with
  | invPow2 => exact h.finish_onCourse _
  | invPow => exact h.finish_onCourse _
  | _ => exact hleft

/-! ### One iteration -/

/-- The word an iteration uses is the one at the address it names (R54). -/
theorem Hidden.wordFor_of_request {p : Port} {t : Table} {j : BitVec 5} {w : Word}
    (hq : h.request i = some (p, romAddr t j)) (hw : rom t j.toNat = .ok w) :
    h.wordFor i = w := by
  rw [rom, BitVec.ofNat_toNat, BitVec.setWidth_eq] at hw
  simp only [Hidden.wordFor, hq, hw]

theorem rom_pow2Table (i : Instr) {j : Nat} (hj : j < 20) :
    rom (pow2Table i) j = .ok ((romTable (pow2Table i)).getD j 0) :=
  rom_of_lt (by cases i <;> exact hj) (by omega)

theorem rom_expFracTable (i : Instr) {j : Nat} (hj : j < 20) :
    rom (expFracTable i) j = .ok ((romTable (expFracTable i)).getD j 0) :=
  rom_of_lt (by cases i <;> exact hj) (by omega)

theorem rom_expIntTable (i : Instr) {j : Nat} (hj : j < 8) :
    rom (expIntTable i) j = .ok ((romTable (expIntTable i)).getD j 0) :=
  rom_of_lt (hj.trans_le (by cases i <;> decide)) (by omega)

/-- The index of a loop counts up. -/
theorem toNat_idx_succ {j : BitVec 5} (hj : j.toNat ≤ 20) : (j + 1).toNat = j.toNat + 1 := by
  rw [BitVec.toNat_add_of_lt]
  · rfl
  · change j.toNat + 1 < 32
    omega

/-- One iteration of the log2 engine is one of `log2Loop` (R112). -/
theorem Hidden.log2Loop_eq_log2Bit {w : Word} (hidx : h.idx.toNat < 20)
    (hacc : h.acc.toNat < 2 ^ 192) (hw : rom tblLog2 h.idx.toNat = .ok w) :
    log2Loop (20 - h.idx.toNat) h.idx.toNat h.acc h.frac =
      log2Loop (19 - h.idx.toNat) (h.idx.toNat + 1) (h.log2Bit w).acc (h.log2Bit w).frac ∧
    (h.log2Bit w).acc.toNat < 2 ^ 192 := by
  obtain ⟨hlow, _⟩ := log2T_range h.idx.toNat hidx
  rw [rom_log2 hidx] at hw
  injection hw with hw
  rw [show 20 - h.idx.toNat = (19 - h.idx.toNat) + 1 by omega, log2Loop, rom_log2 hidx, hw]
  rw [hw] at hlow
  unfold Hidden.log2Bit
  by_cases hle : w.toNat ≤ h.acc.toNat
  · have hdiv := divQ_eq_shiftDivide (a := h.acc) (b := w) (by rintro rfl; simp at hlow) hacc
    have hquot := (divQ_ok hdiv).2
    have hquot_le : h.acc.toNat * 2 ^ 64 / w.toNat ≤ h.acc.toNat :=
      Nat.div_le_of_le_mul (by rw [Nat.mul_comm]; exact Nat.mul_le_mul_right _ hlow.le)
    simp only [hle, if_true, bind, Except.bind, hdiv, hquot, true_and]
    omega
  · simp only [hle, if_false, bind, Except.bind, hacc, and_self]

@[simp] theorem Hidden.log2Bit_idx (h : Hidden) (w : Word) : (h.log2Bit w).idx = h.idx + 1 := by
  unfold Hidden.log2Bit; split <;> rfl
@[simp] theorem Hidden.log2Bit_k (h : Hidden) (w : Word) : (h.log2Bit w).k = h.k := by
  unfold Hidden.log2Bit; split <;> rfl
@[simp] theorem Hidden.log2Bit_phase (h : Hidden) (w : Word) :
    (h.log2Bit w).phase = h.phase := by
  unfold Hidden.log2Bit; split <;> rfl

/-- An iteration of the log2 engine, the last one included (R112, R178). -/
theorem Hidden.iterate_log2_onCourse (hp : h.phase = .log2)
    (hi : i ∈ [.log2, .ln, .pow, .invPow]) (hidx : h.idx.toNat < 20)
    (hacc : h.acc.toNat < 2 ^ 192) (hn : 41 - h.idx.toNat ≤ n) :
    (h.iterate i a b (h.wordFor i)).OnCourse i a b (h.owed i a b) n := by
  have hword : h.wordFor i = log2T.getD h.idx.toNat 0 :=
    Hidden.wordFor_of_request (p := .log2Engine) (by simp only [Hidden.request, hp]) (rom_log2 hidx)
  obtain ⟨hloop, hacc'⟩ := h.log2Loop_eq_log2Bit hidx hacc (rom_log2 hidx)
  have hnext := toNat_idx_succ hidx.le
  simp only [Hidden.iterate, Hidden.owed, hp, hword, hloop]
  split
  · refine ⟨?_, ?_, ?_⟩
    · simp only [Hidden.InBounds, Hidden.log2Bit_phase, hp, Hidden.log2Bit_idx, hnext]
      exact ⟨hi, by omega, hacc'⟩
    · simp only [Hidden.owed, Hidden.log2Bit_phase, hp, Hidden.log2Bit_idx, hnext,
        Hidden.log2Bit_k]
      rw [show 20 - (h.idx.toNat + 1) = 19 - h.idx.toNat by omega]
    · simp only [Hidden.iterationsLeft, Hidden.log2Bit_phase, hp, Hidden.log2Bit_idx, hnext]
      omega
  · have hlast : h.idx.toNat = 19 := by omega
    rw [hlast] at hn ⊢
    have hc := Hidden.afterLog2_onCourse (a := a) (b := b) (h.log2Bit (log2T.getD 19 0)) hi hn
    rwa [Hidden.logValue, Hidden.log2Bit_k] at hc

/-- An index of a loop over table entries: with its bit set the entry is multiplied in, without it
the accumulator goes on as it is (R134, R152). -/
theorem Hidden.tableStep_onCourse {bit : Bool} {p : Port} {t : Table} {w : Word}
    {go : Word → Except Abort Word} (hidx : h.idx.toNat < 20) (hw : rom t h.idx.toNat = .ok w)
    (hreq : bit = true → h.request i = some (p, romAddr t h.idx))
    (hgo : ∀ h' : Hidden, h'.phase = h.phase → h'.idx.toNat = h.idx.toNat + 1 → h'.k = h.k →
      h'.frac = h.frac → h'.OnCourse i a b (execPair (go h'.acc)) n) :
    Hidden.OnCourse (if bit then h.mulEntry (h.wordFor i) else { h with idx := h.idx + 1 }) i a b
      (execPair (if bit then mulQ h.acc w >>= go else go h.acc)) n := by
  have hnext := toNat_idx_succ hidx.le
  rcases bit with _ | _
  · exact hgo _ rfl hnext rfl rfl
  · simp only [if_true, Hidden.wordFor_of_request (hreq rfl) hw, mulQ_eq_product h,
      Hidden.mulEntry]
    split
    · exact hgo _ rfl hnext rfl rfl
    · exact Hidden.fail_onCourse _ _

/-- One index of the fraction loop, before what the command does with its product (R134). -/
theorem fracLoop_bind {t : Table} {f : BitVec 64} {j : Nat} {v w : Word}
    {fin : Word → Except Abort Word} (hj : j < 20) (hw : rom t j = .ok w) :
    fracLoop t f (20 - j) j v >>= fin =
      if fracBit f j then mulQ v w >>= fun v' => fracLoop t f (20 - (j + 1)) (j + 1) v' >>= fin
      else fracLoop t f (20 - (j + 1)) (j + 1) v >>= fin := by
  rw [show 20 - j = 20 - (j + 1) + 1 by omega, fracLoop, hw]
  split
  · exact bind_assoc (mulQ v w) _ fin
  · rfl

/-- One index of the integer loop (R152). -/
theorem intLoop_eq_ite {t : Table} {k j : Nat} {v w : Word} (hj : j < 8) (hw : rom t j = .ok w) :
    intLoop t k (8 - j) j v =
      if k.testBit j then mulQ v w >>= intLoop t k (8 - (j + 1)) (j + 1)
      else intLoop t k (8 - (j + 1)) (j + 1) v := by
  rw [show 8 - j = 8 - (j + 1) + 1 by omega, intLoop, hw]
  rfl

/-- An iteration of the pow2 engine (R134, R140). -/
theorem Hidden.iterate_pow2_onCourse (hp : h.phase = .pow2)
    (hi : i ∈ [.pow2, .invPow2, .pow, .invPow]) (hidx : h.idx.toNat ≤ 20)
    (hn : 20 - h.idx.toNat ≤ n) :
    (h.iterate i a b (h.wordFor i)).OnCourse i a b (h.owed i a b) n := by
  simp only [Hidden.iterate, Hidden.owed, hp]
  rcases hidx.lt_or_eq with hlt | heq
  · have hw := rom_pow2Table i hlt
    simp only [hlt, if_true, fracLoop_bind hlt hw, ← hp]
    refine Hidden.tableStep_onCourse (p := .pow2Engine) hlt hw
      (fun hbit => by simp only [Hidden.request, hp, hlt, hbit, and_self, if_true])
      fun h' hp' hnext hk' hfrac' => ?_
    rw [hp] at hp'
    exact ⟨by simp only [Hidden.InBounds, hp']; exact ⟨hi, by omega⟩,
      by simp only [Hidden.owed, hp', hnext, hk', hfrac'],
      by simp only [Hidden.iterationsLeft, hp']; omega⟩
  · simp only [heq]
    exact h.scale_onCourse

/-- The iteration of `LN` that multiplies the constant in (R120). -/
theorem Hidden.iterate_lnConst_onCourse (hp : h.phase = .lnConst) (hn : 1 ≤ n) :
    (h.iterate .ln a b (h.wordFor .ln)).OnCourse .ln a b (h.owed .ln a b) n := by
  obtain ⟨w, hw⟩ : ∃ w, rom tblConst 0 = .ok w := ⟨_, rom_const⟩
  have hword : h.wordFor .ln = w := Hidden.wordFor_of_request (p := .derivedOps) (j := 0)
    (by simp only [Hidden.request, hp]) hw
  simp only [Hidden.iterate, Hidden.owed, hp, hword, hw]
  refine ⟨by simp [Hidden.InBounds], ?_, hn⟩
  change _ = execPair (mulQ h.acc w)
  rw [mulQ_eq_product h]
  rfl

/-- An iteration of the exp engine on the fraction; the last one turns to the integer part
(R152, R160). -/
theorem Hidden.iterate_expFrac_onCourse (hp : h.phase = .expFrac) (hi : i ∈ [.exp, .invExp])
    (hk : i = .invExp → h.k.toNat < 2 ^ 6) (hidx : h.idx.toNat ≤ 20)
    (hn : 29 - h.idx.toNat ≤ n) :
    (h.iterate i a b (h.wordFor i)).OnCourse i a b (h.owed i a b) n := by
  simp only [Hidden.iterate, Hidden.owed, hp]
  rcases hidx.lt_or_eq with hlt | heq
  · have hw := rom_expFracTable i hlt
    simp only [hlt, if_true, fracLoop_bind hlt hw, ← hp]
    refine Hidden.tableStep_onCourse (p := .expEngine) hlt hw
      (fun hbit => by simp only [Hidden.request, hp, hlt, hbit, and_self, if_true])
      fun h' hp' hnext hk' hfrac' => ?_
    rw [hp] at hp'
    exact ⟨by simp only [Hidden.InBounds, hp']; exact ⟨hi, by omega, hk' ▸ hk⟩,
      by simp only [Hidden.owed, hp', hnext, hk', hfrac'],
      by simp only [Hidden.iterationsLeft, hp']; omega⟩
  · simp only [heq]
    exact ⟨⟨hi, Nat.zero_le 8, hk⟩, rfl, by simp [Hidden.iterationsLeft]; omega⟩

/-- An iteration of the exp engine on the integer part (R152, R160). -/
theorem Hidden.iterate_expInt_onCourse (hp : h.phase = .expInt) (hi : i ∈ [.exp, .invExp])
    (hk : i = .invExp → h.k.toNat < 2 ^ 6) (hidx : h.idx.toNat ≤ 8)
    (hn : 8 - h.idx.toNat ≤ n) :
    (h.iterate i a b (h.wordFor i)).OnCourse i a b (h.owed i a b) n := by
  simp only [Hidden.iterate, Hidden.owed, hp]
  rcases hidx.lt_or_eq with hlt | heq
  · have hw := rom_expIntTable i hlt
    simp only [hlt, if_true, intLoop_eq_ite hlt hw, ← hp]
    refine Hidden.tableStep_onCourse (p := .expEngine) (hlt.trans (by decide)) hw
      (fun hbit => by simp only [Hidden.request, hp, hlt, hbit, and_self, if_true])
      fun h' hp' hnext hk' _ => ?_
    rw [hp] at hp'
    exact ⟨by simp only [Hidden.InBounds, hp']; exact ⟨hi, by omega, hk' ▸ hk⟩,
      by simp only [Hidden.owed, hp', hnext, hk'],
      by simp only [Hidden.iterationsLeft, hp']; omega⟩
  · simp only [heq]
    exact h.finish_onCourse _

/-- An iteration keeps what is owed and comes nearer the end. -/
theorem Hidden.OnCourse.iterate (hc : h.OnCourse i a b r n) :
    (h.iterate i a b (h.wordFor i)).OnCourse i a b r (n - 1) := by
  obtain ⟨hin, rfl, hnear⟩ := hc
  rcases hp : h.phase with _ | _ | _ | _ | _ | _ | _ | e <;>
    simp only [Hidden.InBounds, hp, Hidden.iterationsLeft] at hin hnear
  case start =>
    simp only [Hidden.iterate, Hidden.owed, hp]
    exact h.begin_onCourse (by omega)
  case log2 =>
    obtain ⟨hi, hidx, hacc⟩ := hin
    exact Hidden.iterate_log2_onCourse hp hi hidx hacc (by omega)
  case lnConst =>
    subst hin
    exact Hidden.iterate_lnConst_onCourse hp (by omega)
  case narrow =>
    simp only [Hidden.iterate, Hidden.owed, hp]
    exact h.afterNarrow_onCourse hin fun hpow => by rw [if_pos hpow] at hnear; omega
  case pow2 =>
    obtain ⟨hi, hidx⟩ := hin
    exact Hidden.iterate_pow2_onCourse hp hi hidx (by omega)
  case expFrac =>
    obtain ⟨hi, hidx, hk⟩ := hin
    exact Hidden.iterate_expFrac_onCourse hp hi hk hidx (by omega)
  case expInt =>
    obtain ⟨hi, hidx, hk⟩ := hin
    exact Hidden.iterate_expInt_onCourse hp hi hk hidx (by omega)
  case finished =>
    simp only [Hidden.iterate, hp]
    exact ⟨by simp only [Hidden.InBounds, hp], rfl, by simp only [Hidden.iterationsLeft, hp]; omega⟩

/-! ### The whole path -/

/-- Iterations one after another. -/
theorem Hidden.OnCourse.runEngine (hc : h.OnCourse i a b r n) (m : Nat) :
    (runEngine i a b m h).OnCourse i a b r (n - m) := by
  induction m generalizing h n with
  | zero => exact hc
  | succ m ih =>
    rw [Nat.sub_add_eq, Nat.sub_right_comm]
    exact ih hc.iterate

/-- At its start an engine owes the value of the command, and is 43 iterations from the end. -/
theorem Hidden.atStart_onCourse (h : Hidden) :
    h.atStart.OnCourse i a b (execPair (commandValue i a b)) 43 :=
  ⟨trivial, rfl, Nat.le_refl _⟩

/-- The state after any number of iterations from a command's start. -/
theorem runEngine_onCourse (i : Instr) (a b : Word) (m : Nat) (h : Hidden) :
    (runEngine i a b m h.atStart).OnCourse i a b (execPair (commandValue i a b)) (43 - m) :=
  h.atStart_onCourse.runEngine m

/-- `Exec` of a byte that decodes is the pair of its command (R173). -/
theorem specExec_of_decode {c : Byte} (hd : decode c = .ok i) :
    specExec c a b = execPair (commandValue i a b) := by
  simp only [specExec_eq_execPair, byteValue, hd]

end

/-- Settles O40: 43 iterations from the start the engine holds what it owed there. -/
theorem theIterationsComputeExec : Obligations.TheIterationsComputeExec := by
  intro i a b h
  rw [specExec_of_decode (decode_encode i)]
  exact (runEngine_onCourse i a b 43 h).finished

end Sys2Proof.Machine
end

section
/-! PROOFS. The invariant of the hidden engines and the ROM ports (spec/20_memory.md R52 to R54,
spec/60_exceptions.md R212). A hidden state on the path of its command is in bounds, so its
requests are for words the command reads; every operation on a channel keeps it on the path, and
none faults it. -/

namespace Sys2Proof.Machine

/-! ### The requests of an engine in bounds -/

section
variable {h : Hidden} {i : Instr} {p : Port} {addr : BitVec 8}

theorem log2_mem_readsOf (hi : i ∈ [.log2, .ln, .pow, .invPow]) : (tblLog2, 20) ∈ readsOf i := by
  fin_cases hi <;> decide

theorem pow2Table_mem_readsOf (hi : i ∈ [.pow2, .invPow2, .pow, .invPow]) :
    (pow2Table i, 20) ∈ readsOf i := by
  fin_cases hi <;> decide

theorem expFracTable_mem_readsOf (hi : i ∈ [.exp, .invExp]) : (expFracTable i, 20) ∈ readsOf i := by
  fin_cases hi <;> decide

/-- `INVEXP` reads only six integer factors, `EXP` eight (R154, R162). -/
theorem expIntTable_mem_readsOf (hi : i ∈ [.exp, .invExp]) :
    (expIntTable i, if i = .invExp then 6 else 8) ∈ readsOf i := by
  fin_cases hi <;> decide

/-- A request in bounds is for a word that the command reads (R52, R154, R162). -/
theorem Hidden.InBounds.request_mem_readsOf (hin : h.InBounds i)
    (hq : h.request i = some (p, addr)) :
    ∃ (tn : Table × Nat) (j : BitVec 5), tn ∈ readsOf i ∧ j.toNat < tn.2 ∧
      addr = romAddr tn.1 j := by
  rcases hp : h.phase with _ | _ | _ | _ | _ | _ | _ | e <;>
    simp only [Hidden.InBounds, Hidden.request, hp, Option.ite_none_right_eq_some,
      Option.some.injEq, Prod.mk.injEq, reduceCtorEq] at hin hq
  case log2 =>
    obtain ⟨hi, hidx, _⟩ := hin
    exact ⟨_, h.idx, log2_mem_readsOf hi, hidx, hq.2.symm⟩
  case lnConst =>
    subst hin
    exact ⟨(tblConst, 1), 0, by decide, by decide, hq.2.symm⟩
  case pow2 =>
    obtain ⟨⟨hidx, _⟩, _, haddr⟩ := hq
    obtain ⟨hi, _⟩ := hin
    exact ⟨_, h.idx, pow2Table_mem_readsOf hi, hidx, haddr.symm⟩
  case expFrac =>
    obtain ⟨⟨hidx, _⟩, _, haddr⟩ := hq
    obtain ⟨hi, _⟩ := hin
    exact ⟨_, h.idx, expFracTable_mem_readsOf hi, hidx, haddr.symm⟩
  case expInt =>
    obtain ⟨⟨hidx, hbit⟩, _, haddr⟩ := hq
    obtain ⟨hi, _, hk⟩ := hin
    refine ⟨_, h.idx, expIntTable_mem_readsOf hi, ?_, haddr.symm⟩
    split
    · rename_i hinv
      by_contra hge
      have hclear := Nat.testBit_lt_two_pow
        ((hk hinv).trans_le (Nat.pow_le_pow_right (by decide) (Nat.not_lt.mp hge)))
      rw [BitVec.getLsbD, hclear] at hbit
      cases hbit
    · exact hidx

/-- The bound of each table a command reads is at most its length (R52). -/
theorem readsOf_le_length : ∀ tn ∈ readsOf i, tn.2 ≤ (romTable tn.1).length := by
  cases i <;> decide

/-- A word that a command reads is defined (R52). -/
theorem memRead_of_mem_readsOf {tn : Table × Nat} {j : BitVec 5} (htn : tn ∈ readsOf i)
    (hj : j.toNat < tn.2) : ∃ w, memRead (romAddr tn.1 j) = .ok w :=
  ⟨_, memRead_romAddr (List.getElem?_eq_getElem (hj.trans_le (readsOf_le_length tn htn)))⟩

end

/-! ### The invariant of the engines -/

section
variable {ch : Channel} {i : Instr}

/-- A channel that is not busy has nothing at its port. -/
theorem Channel.EngineInv.quiet_of_not_busy (hinv : ch.EngineInv) (hb : ch.status.busy = false) :
    ch.romPort = .quiet :=
  have ⟨_, _, hquiet⟩ := hinv
  hquiet hb

/-- What is known of a channel's hidden state on the path of its command. -/
theorem Channel.OnPath.onCourse (hpath : ch.OnPath i) :
    ∃ n, ch.hidden.OnCourse i ch.opa ch.opb (execPair (commandValue i ch.opa ch.opb)) n := by
  obtain ⟨⟨n, h, hh⟩, _, _⟩ := hpath
  exact ⟨43 - n, hh ▸ runEngine_onCourse i ch.opa ch.opb n h⟩

/-- A channel with a request waiting is on the path of a command (R54, R204). -/
theorem Channel.EngineInv.onPath_of_waiting (hinv : ch.EngineInv) {p : Port} {addr : BitVec 8}
    (hport : ch.romPort = .waiting p addr) :
    ∃ i, decode ch.cmd = .ok i ∧ ch.OnPath i := by
  obtain ⟨hcommand, hillegal, hquiet⟩ := hinv
  rcases hb : ch.status.busy with _ | _
  · rw [hquiet hb] at hport
    cases hport
  · rcases hd : decode ch.cmd with e | i
    · rw [(hillegal hb e hd).1] at hport
      cases hport
    · exact ⟨i, rfl, hcommand hb i hd⟩

/-- A waiting request is for a word that the command reads (R52). -/
theorem Channel.EngineInv.waiting_mem_readsOf (hinv : ch.EngineInv) {p : Port} {addr : BitVec 8}
    (hport : ch.romPort = .waiting p addr) :
    ∃ (i : Instr) (tn : Table × Nat) (j : BitVec 5), decode ch.cmd = .ok i ∧ tn ∈ readsOf i ∧
      j.toNat < tn.2 ∧ addr = romAddr tn.1 j := by
  obtain ⟨i, hd, hpath⟩ := hinv.onPath_of_waiting hport
  obtain ⟨n, hcourse⟩ := hpath.onCourse
  obtain ⟨_, hwaiting, _⟩ := hpath
  obtain ⟨tn, j, hread⟩ := hcourse.inBounds.request_mem_readsOf (hwaiting p addr hport)
  exact ⟨i, tn, j, hd, hread⟩

/-- A granted channel gets the word it asked for; under the invariant it never faults (R42, R52). -/
theorem Channel.EngineInv.granted_eq (hinv : ch.EngineInv) (hq : ch.requesting = true)
    (h : Hidden) :
    ∃ p addr w, ch.romPort = .waiting p addr ∧ memRead addr = .ok w ∧
      ch.granted h = { ch with romPort := .ready w } := by
  rcases hport : ch.romPort with _ | ⟨p, addr⟩ | w
  · simp [Channel.requesting, hport] at hq
  · obtain ⟨i, tn, j, _, htn, hj, rfl⟩ := hinv.waiting_mem_readsOf hport
    obtain ⟨w, hw⟩ := memRead_of_mem_readsOf htn hj
    exact ⟨p, _, w, rfl, hw, by simp only [Channel.granted, hport, hw]⟩
  · simp [Channel.requesting, hport] at hq

/-- The registers of a granted channel stay (R56). -/
theorem Channel.EngineInv.granted_registers (hinv : ch.EngineInv) (hq : ch.requesting = true)
    (h : Hidden) : (ch.granted h).registers = ch.registers := by
  obtain ⟨_, _, _, _, _, heq⟩ := hinv.granted_eq hq h
  rw [heq]
  rfl

/-- A channel that is not busy and has nothing at its port meets the invariant. -/
theorem Channel.engineInv_of_not_busy (hb : ch.status.busy = false) (hport : ch.romPort = .quiet) :
    ch.EngineInv :=
  ⟨fun h => by simp [hb] at h, fun h => by simp [hb] at h, fun _ => hport⟩

/-- A started command is at the beginning of its path (R171). -/
theorem Channel.engineInv_startCommand (ch : Channel) (c : Byte) :
    (ch.startCommand c).EngineInv :=
  ⟨fun _ _ _ => ⟨⟨0, ch.hidden, rfl⟩, nofun, nofun⟩, fun _ _ _ => ⟨rfl, .inl rfl⟩,
    nofun⟩

theorem Channel.EngineInv.writeReg (hinv : ch.EngineInv) (r : BitVec 3) (v : Word) :
    (ch.writeReg r v).EngineInv := by
  rcases ch.writeReg_cases r v with h | ⟨hb, _, h | h | h⟩ <;> rw [h]
  · exact hinv
  · exact Channel.engineInv_of_not_busy hb (hinv.quiet_of_not_busy hb)
  · exact Channel.engineInv_of_not_busy hb (hinv.quiet_of_not_busy hb)
  · exact ch.engineInv_startCommand _

theorem Channel.engineInv_settle (ch : Channel) (r : Except Abort Word) (h : Hidden) :
    (ch.settle r h).EngineInv := by
  obtain ⟨_, _, _, hport, hb⟩ := ch.settle_keeps r h
  exact Channel.engineInv_of_not_busy hb hport

theorem Channel.EngineInv.granted (hinv : ch.EngineInv) (hq : ch.requesting = true) (h : Hidden) :
    (ch.granted h).EngineInv := by
  obtain ⟨p, addr, w, hport, hw, heq⟩ := hinv.granted_eq hq h
  obtain ⟨hcommand, hillegal, hquiet⟩ := hinv
  rw [heq]
  refine ⟨fun hb i hd => ?_, fun hb e hd => ?_, fun hb => ?_⟩
  · obtain ⟨hengine, hwaiting, _⟩ := hcommand hb i hd
    refine ⟨hengine, nofun, fun w' hw' => ?_⟩
    injection hw' with hw'
    exact ⟨(p, addr), hwaiting p addr hport, hw' ▸ hw⟩
  · rw [(hillegal hb e hd).1] at hport
    cases hport
  · rw [hquiet hb] at hport
    cases hport

/-- The path goes on by one iteration, whose word is the one the engine uses. -/
theorem runEngine_succ (i : Instr) (a b : Word) (n : Nat) (h : Hidden) :
    runEngine i a b (n + 1) h =
      (runEngine i a b n h).iterate i a b ((runEngine i a b n h).wordFor i) := by
  induction n generalizing h with
  | zero => rfl
  | succ n ih => exact ih _

/-- An iteration of a command on its path stays on it: without a read, asking for the word, waiting
for it, and using it. -/
theorem Channel.OnPath.advance (hpath : ch.OnPath i) (hd : decode ch.cmd = .ok i) :
    ch.advance.OnPath i := by
  have hkeep := hpath
  obtain ⟨⟨n, h, hh⟩, hwaiting, hready⟩ := hpath
  have hnext {w : Word} (hw : ch.hidden.wordFor i = w) :
      Channel.OnPath
        { ch with hidden := ch.hidden.iterate i ch.opa ch.opb w, romPort := .quiet } i :=
    ⟨⟨n + 1, h, by simp only [runEngine_succ, ← hh, hw]⟩, nofun, nofun⟩
  rcases hq : ch.hidden.request i with _ | q <;> rcases hport : ch.romPort with _ | ⟨p, addr⟩ | w
  case none.quiet =>
    simpa only [Channel.advance, hd, hq, hport] using hnext (by simp only [Hidden.wordFor, hq])
  case none.waiting => simp [hwaiting p addr hport] at hq
  case none.ready => obtain ⟨_, hq', _⟩ := hready w hport; simp [hq'] at hq
  case some.quiet =>
    simp only [Channel.advance, hd, hq, hport]
    refine ⟨⟨n, h, hh⟩, fun p addr hp => ?_, nofun⟩
    injection hp with hp haddr
    rw [← hp, ← haddr]
    exact hq
  case some.waiting => simpa only [Channel.advance, hd, hq, hport] using hkeep
  case some.ready =>
    obtain ⟨q', hq', hw⟩ := hready w hport
    obtain rfl : q' = q := Option.some.inj (hq'.symm.trans hq)
    simpa only [Channel.advance, hd, hq, hport] using
      hnext (by simp only [Hidden.wordFor, hq, hw])

theorem Channel.EngineInv.advance (hinv : ch.EngineInv) (hb : ch.status.busy = true) :
    ch.advance.EngineInv := by
  obtain ⟨hcommand, hillegal, _⟩ := hinv
  have hcmd : ch.advance.cmd = ch.cmd := congrArg Registers.cmd ch.advance_registers
  have hstatus : ch.advance.status = ch.status := congrArg Registers.status ch.advance_registers
  refine ⟨fun _ i hd => ?_, fun _ e hd => ?_, fun hb' => ?_⟩
  · rw [hcmd] at hd
    exact (hcommand hb i hd).advance hd
  · rw [hcmd] at hd
    simp only [Channel.advance, hd]
    exact ⟨(hillegal hb e hd).1, .inr ⟨rfl, rfl⟩⟩
  · rw [hstatus, hb] at hb'
    cases hb'

theorem Channel.engineInv_reset : Channel.reset.EngineInv :=
  Channel.engineInv_of_not_busy rfl rfl

theorem Channel.engineInv_keptByOps : Channel.KeptByOps Channel.EngineInv where
  reset := Channel.engineInv_reset
  write _ r v hinv := hinv.writeReg r v
  settle ch h _ _ := ch.engineInv_settle _ h
  advance _ hb hinv := hinv.advance hb
  granted _ h hq hinv := hinv.granted hq h

/-- Settles O30: each operation on a channel keeps its engine on the path. -/
theorem everyStepKeepsTheEngineInvariant : Obligations.EveryStepKeepsTheEngineInvariant :=
  fun _ _ hs h => forall_channels_step Channel.engineInv_keptByOps hs h

/-! ### No fault -/

/-- A completion never takes the fault: no evaluation reads outside a table (R52, R212). -/
theorem Channel.settle_status (ch : Channel) (h : Hidden) :
    ∃ e v, specExec ch.cmd ch.opa ch.opb = some (e, v) ∧
      (ch.settle (byteValue ch.cmd ch.opa ch.opb) h).res = v ∧
      (ch.settle (byteValue ch.cmd ch.opa ch.opb) h).status = ch.status.completed e := by
  rw [specExec_eq_execPair]
  rcases hv : byteValue ch.cmd ch.opa ch.opb with (f | _) | v
  · exact ⟨f.code, 0, rfl, rfl, rfl⟩
  · exact absurd hv (byteValue_ne_tableBound _ _ _)
  · exact ⟨0, v, rfl, rfl, rfl⟩

/-- An engine on its path whose `FAULT` is clear. -/
def Channel.SoundEngine (ch : Channel) : Prop := ch.EngineInv ∧ ch.status.fault = false

/-- `FAULT` is a register: what leaves the registers leaves it. -/
theorem Channel.fault_of_registers_eq {ch' : Channel} (h : ch'.registers = ch.registers)
    (hf : ch.status.fault = false) : ch'.status.fault = false := by
  rw [show ch'.status = ch.status from congrArg Registers.status h, hf]

theorem Channel.soundEngine_keptByOps : Channel.KeptByOps Channel.SoundEngine where
  reset := ⟨Channel.engineInv_reset, rfl⟩
  write ch r v := by
    rintro ⟨hinv, hf⟩
    refine ⟨hinv.writeReg r v, ?_⟩
    rcases ch.writeReg_cases r v with hw | ⟨_, _, hw | hw | hw⟩ <;> rw [hw] <;> exact hf
  settle ch h _ := by
    rintro ⟨_, hf⟩
    obtain ⟨e, v, _, _, hstatus⟩ := ch.settle_status h
    exact ⟨ch.engineInv_settle _ h, by rw [hstatus]; exact hf⟩
  advance ch hb := by
    rintro ⟨hinv, hf⟩
    exact ⟨hinv.advance hb, Channel.fault_of_registers_eq ch.advance_registers hf⟩
  granted ch h hq := by
    rintro ⟨hinv, hf⟩
    exact ⟨hinv.granted hq h, Channel.fault_of_registers_eq (hinv.granted_registers hq h) hf⟩

/-- Settles O31: neither a completion nor a grant of a channel on its path faults. -/
theorem everyStepKeepsFaultClear : Obligations.EveryStepKeepsFaultClear := by
  intro s t hinv hfault h ch hch
  have hs : ∀ ch ∈ s.channels, ch.SoundEngine := fun ch hch => ⟨hinv ch hch, hfault ch hch⟩
  obtain ⟨_, hf⟩ := forall_channels_step Channel.soundEngine_keptByOps hs h ch hch
  exact hf

/-! ### What the invariant says of a running command -/

/-- Settles O41: on its path a finished engine holds what it owes; an illegal byte's engine holds
its failure. -/
theorem aFinishedEngineHoldsTheOutcome : Obligations.AFinishedEngineHoldsTheOutcome := by
  intro s ch e hinv hch hb hp
  obtain ⟨hcommand, hillegal, _⟩ := hinv ch hch
  rcases hd : decode ch.cmd with err | i
  · rw [specExec_eq_execPair, byteValue_of_rejected ⟨err, hd⟩]
    rcases hillegal hb err hd with ⟨_, hstart | ⟨hfinished, hacc⟩⟩
    · simp [hp] at hstart
    · rw [hp] at hfinished
      injection hfinished with he
      rw [he, hacc]
      rfl
  · obtain ⟨n, hcourse⟩ := (hcommand hb i hd).onCourse
    rw [specExec_of_decode hd, ← hcourse.owed]
    simp only [Hidden.owed, hp]

/-- Settles O42: the request is one of a hidden state in bounds. -/
theorem requestsStayInTheTablesOfTheCommand : Obligations.RequestsStayInTheTablesOfTheCommand := by
  intro s ch p addr hinv hch hport
  obtain ⟨i, tn, j, hd, htn, hj, rfl⟩ := (hinv ch hch).waiting_mem_readsOf hport
  obtain ⟨w, hw⟩ := memRead_of_mem_readsOf htn hj
  obtain ⟨htable, hindex⟩ := romAddr_fields tn.1 j
  rw [romAddrIndex] at hindex
  exact ⟨i, tn, w, hd, htn, htable, by rwa [hindex], hw⟩

end

/-- Settles O28: the channels are all reset, and there is no input. -/
theorem resetStateMeetsTheInvariants : Obligations.ResetStateMeetsTheInvariants := by
  intro n
  have heq : ∀ ch ∈ (State.resetOf n).channels, ch = Channel.reset :=
    fun ch hch => List.eq_of_mem_replicate hch
  refine ⟨State.statusInv_resetOf n, fun ch hch => ?_, fun ch hch => ?_, nofun,
    List.length_replicate, fun ch hch => ?_⟩ <;> rw [heq ch hch]
  · exact Channel.engineInv_reset
  · rfl
  · rfl

end Sys2Proof.Machine
end

section
/-! PROOFS. Steps of the machine as its channels see them (spec/44_derived.md R170 to R188).
Without a reset a step does at most one operation on each channel, and an input for one channel
does its operation on that channel alone. -/

namespace Sys2Proof.Machine

/-! ### The operations a channel can see -/

/-- What one step without a reset can make of a channel. -/
inductive Channel.Op (ch : Channel) : Channel → Prop
  | same : Channel.Op ch ch
  | write (r : BitVec 3) (v : Word) : Channel.Op ch (ch.writeReg r v)
  | settle (h : Hidden) (busy : ch.status.busy = true) :
      Channel.Op ch (ch.settle (byteValue ch.cmd ch.opa ch.opb) h)
  | advance (busy : ch.status.busy = true) : Channel.Op ch ch.advance
  | granted (h : Hidden) (requesting : ch.requesting = true) : Channel.Op ch (ch.granted h)

section
variable {s t : State} {c d : Nat} {ch x y : Channel}

/-- An operation on one channel is one on it, and none on the others. -/
theorem State.setChannel_op (hd : s.channels[d]? = some x) (hop : x.Op y)
    (hc : s.channels[c]? = some ch) :
    ∃ ch', (s.setChannel d y).channels[c]? = some ch' ∧ ch.Op ch' := by
  rcases eq_or_ne c d with rfl | hne
  · obtain rfl := Option.some.inj (hc.symm.trans hd)
    exact ⟨y, State.setChannel_getElem?_self hc y, hop⟩
  · exact ⟨ch, (State.setChannel_getElem?_ne hne y).trans hc, .same⟩

theorem State.runChannel_op (hc : s.channels[c]? = some ch) (h : s.runChannel d = .next t) :
    ∃ ch', t.channels[c]? = some ch' ∧ ch.Op ch' := by
  obtain ⟨x, hd, ⟨_, rfl⟩ | ⟨hb, rfl⟩⟩ := State.runChannel_next h
  · exact ⟨ch, hc, .same⟩
  · exact State.setChannel_op hd (.settle _ hb) hc

theorem State.takeEvent_op {e : Event} (hc : s.channels[c]? = some ch) (he : e ≠ .reset)
    (h : s.takeEvent e = .next t) : ∃ ch', t.channels[c]? = some ch' ∧ ch.Op ch' := by
  cases e with
  | write index v =>
    obtain ⟨x, hd, rfl⟩ := State.hostWrite_next h
    exact State.setChannel_op hd (.write _ v) hc
  | read index =>
    obtain ⟨_, _, rfl⟩ := State.hostRead_next h
    exact ⟨ch, hc, .same⟩
  | wait d =>
    obtain ⟨_, _, ⟨_, rfl⟩ | ⟨_, d', hd', _⟩ | ⟨_, _, _, rfl⟩⟩ := State.waitFor_next h
    · exact ⟨ch, hc, .same⟩
    · exact State.runChannel_op (s := { s with pending := .wait d :: s.pending }) hc hd'
    · exact ⟨ch, hc, .same⟩
  | complete d => exact State.runChannel_op hc h
  | advance d =>
    obtain ⟨x, hd, ⟨_, rfl⟩ | ⟨hb, rfl⟩⟩ := State.advance_next h
    · exact ⟨ch, hc, .same⟩
    · exact State.setChannel_op hd (.advance hb) hc
  | grant =>
    rcases State.grantOne_next h with ⟨_, rfl⟩ | ⟨d, x, _, hd, hq, rfl⟩
    · exact ⟨ch, hc, .same⟩
    · exact State.setChannel_op hd (.granted _ hq) hc
  | reset => exact absurd rfl he

/-- Without a reset a step does at most one operation on each channel. -/
theorem step_op (hc : s.channels[c]? = some ch) (hreset : s.pending.head? ≠ some .reset)
    (h : step s = .next t) : ∃ ch', t.channels[c]? = some ch' ∧ ch.Op ch' := by
  rcases step_next h with ⟨_, _, rfl⟩ | ⟨_, d, _, hd⟩ | ⟨e, rest, hp, he⟩
  · exact ⟨ch, hc, .same⟩
  · exact State.runChannel_op hc hd
  · rw [hp, List.head?_cons, Option.some_inj.ne] at hreset
    exact State.takeEvent_op (s := { s with pending := rest }) hc hreset he

theorem State.registersAt_of_getElem? (hc : s.channels[c]? = some ch) :
    s.registersAt c = some ch.registers := by
  simp only [State.registersAt, hc, Option.map_some]

end

/-! ### Busy and faulted channels -/

section
variable {ch ch' : Channel}

/-- A channel that ignores writes, being busy or faulted, keeps its registers unless it completes
(R56, R172, R184). -/
theorem Channel.Op.of_ignoring_writes (hop : ch.Op ch') (hinv : ch.EngineInv)
    (hw : ch.status.busy = true ∨ ch.status.fault = true) :
    ch'.registers = ch.registers ∨
    ch.status.busy = true ∧ ∃ h, ch' = ch.settle (byteValue ch.cmd ch.opa ch.opb) h := by
  cases hop with
  | same => exact .inl rfl
  | write r v => exact .inl (by rw [Channel.writeReg_ignored r v hw])
  | settle h hb => exact .inr ⟨hb, h, rfl⟩
  | advance _ => exact .inl ch.advance_registers
  | granted h hq => exact .inl (hinv.granted_registers hq h)

/-- The registers after a completion (R172). -/
theorem Channel.settle_registers (ch : Channel) (h : Hidden) :
    ∃ e v, specExec ch.cmd ch.opa ch.opb = some (e, v) ∧
      (ch.settle (byteValue ch.cmd ch.opa ch.opb) h).registers =
        { opa := ch.opa, opb := ch.opb, cmd := ch.cmd, res := v,
          status := ch.status.completed e } := by
  obtain ⟨e, v, hexec, hres, hstatus⟩ := ch.settle_status h
  obtain ⟨hopa, hopb, hcmd, _⟩ := ch.settle_keeps (byteValue ch.cmd ch.opa ch.opb) h
  exact ⟨e, v, hexec, by rw [Channel.registers, hopa, hopb, hcmd, hres, hstatus]⟩

end

/-- Settles O35: a busy channel ignores writes, so its registers stay or it completes. -/
theorem aBusyChannelOnlyCompletes : Obligations.ABusyChannelOnlyCompletes := by
  intro s t c ch hinv hc hb hreset h
  obtain ⟨ch', hc', hop⟩ := step_op hc hreset h
  simp only [State.registersAt_of_getElem? hc, State.registersAt_of_getElem? hc', Option.some_inj]
  rcases hop.of_ignoring_writes (State.forall_channels_at hinv hc) (.inl hb) with
    hsame | ⟨_, x, rfl⟩
  · exact .inl hsame
  · exact .inr (ch.settle_registers x)

/-- Settles O37: a faulted channel ignores writes, and it has no command to complete. -/
theorem aFaultedChannelWaitsForReset : Obligations.AFaultedChannelWaitsForReset := by
  intro s t c ch hinv hc hf hb hreset h
  obtain ⟨ch', hc', hop⟩ := step_op hc hreset h
  rw [State.registersAt_of_getElem? hc, State.registersAt_of_getElem? hc', Option.some_inj]
  rcases hop.of_ignoring_writes (State.forall_channels_at hinv hc) (.inr hf) with
    hsame | ⟨hb', _⟩
  · exact hsame
  · simp [hb] at hb'

/-! ### The four conditions -/

section
variable {ch ch' : Channel}

/-- By R17 (a) and (e) a channel is in exactly one of the conditions of R170. -/
theorem Channel.StatusInv.one_condition (hch : ch.StatusInv) :
    ch.status.isIdle.toNat + ch.status.busy.toNat + ch.status.isDone.toNat +
      ch.status.fault.toNat = 1 := by
  obtain ⟨hboth, _, _, _, hfault, _⟩ := hch
  rcases hb : ch.status.busy with _ | _ <;> rcases hd : ch.status.done with _ | _ <;>
    rcases hf : ch.status.fault with _ | _ <;>
    simp_all [Status.isIdle, Status.isDone]

/-- The flags of a channel that is not busy change only by a start (R170, R171). -/
theorem Channel.Op.of_not_busy (hop : ch.Op ch') (hinv : ch.EngineInv)
    (hb : ch.status.busy = false) :
    ch'.status = ch.status ∨ ch.status.fault = false ∧ ch'.status = ch.status.started := by
  cases hop with
  | same => exact .inl rfl
  | write r v =>
    rcases ch.writeReg_cases r v with h | ⟨_, hf, h | h | h⟩ <;> rw [h]
    · exact .inl rfl
    · exact .inl rfl
    · exact .inl rfl
    · exact .inr ⟨hf, rfl⟩
  | settle _ hb' => simp [hb] at hb'
  | advance hb' => simp [hb] at hb'
  | granted h hq => exact .inl (congrArg Registers.status (hinv.granted_registers hq h))

/-- The flags of a busy channel change only by its completion (R170, R172). -/
theorem Channel.Op.of_busy (hop : ch.Op ch') (hinv : ch.EngineInv) (hb : ch.status.busy = true) :
    ch'.status = ch.status ∨ ∃ e, ch'.status = ch.status.completed e := by
  rcases hop.of_ignoring_writes hinv (.inl hb) with hsame | ⟨_, x, rfl⟩
  · exact .inl (congrArg Registers.status hsame)
  · obtain ⟨e, _, _, _, hstatus⟩ := ch.settle_status x
    exact .inr ⟨e, hstatus⟩

end

/-- Settles O38: the flags of a channel stay, or are those of a start, or those of a completion. -/
theorem conditionsChangeOnlyAsNamed : Obligations.ConditionsChangeOnlyAsNamed := by
  intro s hs
  refine ⟨fun ch hch => (hs ch hch).one_condition, ?_⟩
  intro t c ch ch' hinv hreset h hc hc'
  obtain ⟨x, hx, hop⟩ := step_op hc hreset h
  obtain rfl : ch' = x := Option.some.inj (hc'.symm.trans hx)
  have hengine := State.forall_channels_at hinv hc
  rcases hb : ch.status.busy with _ | _
  · rcases hop.of_not_busy hengine hb with hst | ⟨hf, hst⟩
    · simp [hst, hb, Status.isIdle, Status.isDone]
    · simp [hst, hb, hf, Status.isIdle, Status.isDone]
  · rcases hop.of_busy hengine hb with hst | ⟨e, hst⟩
    · simp [hst, hb, Status.isIdle, Status.isDone]
    · simp [hst, hb, Status.isIdle, Status.isDone]

/-! ### Hidden work -/

section
variable {s : State} {c : Nat} {ch ch' : Channel}

/-- Replacing a channel by one with the same registers leaves every register. -/
theorem State.setChannel_registersAt (hc : s.channels[c]? = some ch)
    (hregs : ch'.registers = ch.registers) (d : Nat) :
    (s.setChannel c ch').registersAt d = s.registersAt d := by
  rcases eq_or_ne d c with rfl | hne
  · rw [State.registersAt_of_getElem? hc,
      State.registersAt_of_getElem? (State.setChannel_getElem?_self hc ch'), hregs]
  · simp only [State.registersAt, State.setChannel_getElem?_ne hne]

end

/-- Settles O47: the one channel that changes keeps its registers. -/
theorem hiddenWorkIsInvisible : Obligations.HiddenWorkIsInvisible := by
  intro s t rest c d hinv hp h
  rcases hp with hp | hp <;> rw [step_of_event hp] at h
  · rcases State.grantOne_next h with ⟨_, rfl⟩ | ⟨x, ch, _, hx, hq, rfl⟩
    · rfl
    · exact State.setChannel_registersAt hx
        ((State.forall_channels_at hinv hx).granted_registers hq _) d
  · obtain ⟨ch, hc, ⟨_, rfl⟩ | ⟨_, rfl⟩⟩ := State.advance_next h
    · rfl
    · exact State.setChannel_registersAt hc ch.advance_registers d

/-! ### Inputs for one channel -/

/-- What an input for one channel does to it; `h` is the hidden state a completion leaves (R18). -/
def Event.effect (e : Event) (ch : Channel) (h : Hidden) : Channel :=
  match e with
  | .write index v => ch.writeReg (indexReg index) v
  | .complete _ =>
    if ch.status.busy then ch.settle (byteValue ch.cmd ch.opa ch.opb) h else ch
  | .advance _ => if ch.status.busy then ch.advance else ch
  | .read _ | .wait _ | .grant | .reset => ch

section
variable {s t : State} {c : Nat} {ch ch' : Channel} {e : Event}

/-- An input for one channel has its effect there and leaves the others (R10, R188). -/
theorem State.takeEvent_of_onlyChannel (he : e.onlyChannel = some c)
    (h : s.takeEvent e = .next t) :
    ∃ ch, s.channels[c]? = some ch ∧ t.channels[c]? = some (e.effect ch s.freshHidden) ∧
      ∀ d, d ≠ c → t.channels[d]? = s.channels[d]? := by
  cases e with
  | write index v =>
    injection he with he
    subst he
    obtain ⟨ch, hc, rfl⟩ := State.hostWrite_next h
    exact ⟨ch, hc, State.setChannel_getElem?_self hc _,
      fun d hd => State.setChannel_getElem?_ne hd _⟩
  | read index =>
    injection he with he
    subst he
    obtain ⟨ch, hc, rfl⟩ := State.hostRead_next h
    exact ⟨ch, hc, hc, fun _ _ => rfl⟩
  | complete c' =>
    injection he with he
    subst he
    obtain ⟨ch, hc, ⟨hb, rfl⟩ | ⟨hb, rfl⟩⟩ := State.runChannel_next h
    · exact ⟨ch, hc, by simpa [Event.effect, hb] using hc, fun _ _ => rfl⟩
    · simp only [Event.effect]
      refine ⟨ch, hc, ?_, fun d hd => State.setChannel_getElem?_ne hd _⟩
      rw [if_pos hb]
      exact State.setChannel_getElem?_self hc _
  | advance c' =>
    injection he with he
    subst he
    obtain ⟨ch, hc, ⟨hb, rfl⟩ | ⟨hb, rfl⟩⟩ := State.advance_next h
    · exact ⟨ch, hc, by simpa [Event.effect, hb] using hc, fun _ _ => rfl⟩
    · refine ⟨ch, hc, ?_, fun d hd => State.setChannel_getElem?_ne hd _⟩
      simp only [Event.effect]
      rw [if_pos hb]
      exact State.setChannel_getElem?_self hc _
  | wait _ => cases he
  | grant => cases he
  | reset => cases he

/-- The registers an effect leaves depend on the registers alone (R4, R188). -/
theorem Event.effect_registers_congr (e : Event) (h h' : Hidden)
    (hregs : ch.registers = ch'.registers) :
    (e.effect ch h).registers = (e.effect ch' h').registers := by
  obtain ⟨opa, opb, cmd, res, status, hidden, romPort⟩ := ch
  obtain ⟨opa', opb', cmd', res', status', hidden', romPort'⟩ := ch'
  simp only [Channel.registers, Registers.mk.injEq] at hregs
  obtain ⟨rfl, rfl, rfl, rfl, rfl⟩ := hregs
  cases e with
  | write index v =>
    simp only [Event.effect, Channel.writeReg]
    split
    · split <;> rfl
    · rfl
  | complete _ =>
    simp only [Event.effect]
    split
    · rcases byteValue cmd opa opb with (f | _) | v <;> rfl
    · rfl
  | advance _ =>
    simp only [Event.effect]
    split
    · simp only [Channel.advance_registers]
      rfl
    · rfl
  | read _ => rfl
  | wait _ => rfl
  | grant => rfl
  | reset => rfl

end

/-- Settles O33: the input has its effect on its own channel. -/
theorem inputsOfOneChannelLeaveTheOthers : Obligations.InputsOfOneChannelLeaveTheOthers := by
  intro s t e rest c d hp he hd h
  rw [step_of_event hp] at h
  obtain ⟨_, _, _, hothers⟩ := State.takeEvent_of_onlyChannel he h
  exact hothers d hd

/-- Settles O34: the same effect on the same registers. -/
theorem aChannelRunsAsIfAlone : Obligations.AChannelRunsAsIfAlone := by
  intro s s' t t' e rest rest' c hp hp' he hregs h h'
  rw [step_of_event hp] at h
  rw [step_of_event hp'] at h'
  obtain ⟨ch, hc, ht, _⟩ := State.takeEvent_of_onlyChannel he h
  obtain ⟨ch', hc', ht', _⟩ := State.takeEvent_of_onlyChannel he h'
  rw [State.registersAt_of_getElem? (s := s) hc, State.registersAt_of_getElem? (s := s') hc',
    Option.some_inj] at hregs
  rw [State.registersAt_of_getElem? ht, State.registersAt_of_getElem? ht',
    e.effect_registers_congr _ _ hregs]

end Sys2Proof.Machine
end

section
/-! PROOFS. The sequencer's turn (spec/44_derived.md R172, R186), and that every run goes on and
comes to an end (spec/60_exceptions.md R213, spec/70_reset_and_hazards.md R262). A step whose
input names an existing channel has a next state, and it uses up an input or a running command,
unless the machine is idle or its host polls in vain. -/

namespace Sys2Proof.Machine

/-! ### The sequencer's turn -/

section
variable {s t : State} {c : Nat} {ch : Channel} {i : Instr}

theorem State.runChannel_of_not_busy (hc : s.channels[c]? = some ch)
    (hb : ch.status.busy = false) : s.runChannel c = .next s := by
  simp [State.runChannel, hc, hb]

/-- The sequencer's turn on a busy channel is `exec` of the command its byte decodes to (R172). -/
theorem State.runChannel_eq_exec (hc : s.channels[c]? = some ch) (hb : ch.status.busy = true)
    (hd : decode ch.cmd = .ok i) : s.runChannel c = exec i { s with active := c } := by
  simp only [State.runChannel, hc, hb, if_true, State.runByte, hd]

/-- A busy channel completes with the pair of `Exec` and the frame of every completion (R172). -/
theorem State.runChannel_completes (hc : s.channels[c]? = some ch) (hb : ch.status.busy = true) :
    ∃ e v t, specExec ch.cmd ch.opa ch.opb = some (e, v) ∧ s.runChannel c = .next t ∧
      State.Completes { s with active := c } t e v := by
  obtain ⟨e, v, hexec, hres, hstatus⟩ := ch.settle_status s.freshHidden
  obtain ⟨hopa, hopb, hcmd, _⟩ :=
    ch.settle_keeps (byteValue ch.cmd ch.opa ch.opb) s.freshHidden
  exact ⟨e, v, _, hexec, State.runChannel_of_busy hc hb, ch, _, hc,
    State.setChannel_getElem?_self hc _, hopa, hopb, hcmd, hres, hstatus,
    fun d hd => State.setChannel_getElem?_ne hd _, rfl, rfl, rfl, rfl⟩

/-- The lowest-numbered busy channel (R262). -/
theorem State.firstBusy_eq_some (hc : s.channels[c]? = some ch) (hb : ch.status.busy = true)
    (hfirst : ∀ d dh, d < c → s.channels[d]? = some dh → dh.status.busy = false) :
    s.firstBusy = some c := by
  obtain ⟨hlt, rfl⟩ := List.getElem?_eq_some_iff.mp hc
  refine List.findIdx?_eq_some_iff_getElem.mpr ⟨hlt, hb, fun d hd => ?_⟩
  rw [hfirst d _ hd (List.getElem?_eq_getElem (hd.trans hlt))]
  decide

/-- The channel found is there and busy. -/
theorem State.exists_of_firstBusy (h : s.firstBusy = some c) :
    ∃ ch, s.channels[c]? = some ch ∧ ch.status.busy = true := by
  obtain ⟨hlt, hb, _⟩ := List.findIdx?_eq_some_iff_getElem.mp h
  exact ⟨_, List.getElem?_eq_getElem hlt, hb⟩

end

/-- Settles O3: both ways to the sequencer's turn on that channel. -/
theorem stepRunsTheDecodedCommand : Obligations.StepRunsTheDecodedCommand := by
  intro s c ch i hc hb hd
  refine ⟨fun rest hp => ?_, fun hp hfirst => ?_⟩
  · rw [step_of_event hp]
    exact State.runChannel_eq_exec (s := { s with pending := rest }) hc hb hd
  · rw [step_of_busy hp (State.firstBusy_eq_some hc hb hfirst)]
    exact State.runChannel_eq_exec hc hb hd

/-- Settles O4: the step is the sequencer's turn. -/
theorem completionFollowsSpecExec : Obligations.CompletionFollowsSpecExec := by
  intro s c ch rest hp hc hb
  rw [step_of_event hp]
  exact State.runChannel_completes (s := { s with pending := rest }) hc hb

/-- Settles O6: every command is the shared completion. -/
theorem nothingCompletesOnAChannelThatIsNotBusy :
    Obligations.NothingCompletesOnAChannelThatIsNotBusy := by
  intro i s ch hc hb
  rw [exec_eq_complete, State.complete_of_not_busy _ hc hb]

/-! ### WAIT -/

section
variable {s : State} {c : Nat} {ch : Channel} {rest : List Event}

/-- A poll that sees `DONE` or `FAULT` takes the WAIT (R186). -/
theorem step_wait_over (hp : s.pending = .wait c :: rest) (hc : s.channels[c]? = some ch)
    (hover : ch.status.waitOver = true) :
    step s = .next { s with pending := rest,
                            readData := BitVec.ofNat 256 ch.status.byte.toNat } := by
  simp only [step_of_event hp, State.takeEvent, State.waitFor, hc, hover, if_true, State.poll,
    Channel.readReg_eq_ite]
  rfl

/-- Before that, a WAIT on a busy channel is the sequencer's turn on it (R186). -/
theorem step_wait_busy (hp : s.pending = .wait c :: rest) (hc : s.channels[c]? = some ch)
    (hover : ch.status.waitOver = false) (hb : ch.status.busy = true) :
    step s = s.runChannel c := by
  simp only [step_of_event hp, State.takeEvent, State.waitFor, hc, hover, hb, if_true,
    Bool.false_eq_true, if_false]
  rw [← hp]

end

/-- Settles O25: the sequencer's turn completes the channel, and the poll after it sees `DONE`. -/
theorem waitEndsWithDone : Obligations.WaitEndsWithDone := by
  refine ⟨fun s c ch rest hs hp hc hb => ?_, fun s c ch rest hp hc hover =>
    step_wait_over hp hc (by simpa [Status.waitOver] using hover)⟩
  obtain ⟨hboth, _, _, _, hfault, _⟩ := State.forall_channels_at hs hc
  have hover : ch.status.waitOver = false := by
    have hd : ch.status.done = false := by simpa [hb] using hboth
    have hf : ch.status.fault = false := by simpa [hb] using hfault
    simp [Status.waitOver, hd, hf]
  obtain ⟨e, v, t, _, ht, hcompletes⟩ := State.runChannel_completes hc hb
  obtain ⟨hothers, hpending⟩ := hcompletes.others_and_pending
  obtain ⟨_, ch', _, hc', _, _, _, _, hstatus, _⟩ := hcompletes
  have hwait := step_wait_over (hpending.trans hp) hc' (by rw [hstatus]; rfl)
  refine ⟨{ t with pending := rest, readData := BitVec.ofNat 256 ch'.status.byte.toNat }, ch', ?_,
    rfl, hc', by rw [hstatus], by rw [hstatus], rfl⟩
  simp only [runSteps, step_wait_busy hp hc hover hb, ht, hwait]

/-! ### Inputs and existing channels -/

/-- Settles O27: the index divided by 8 is no channel's number. -/
theorem accessBeyondTheChannelsStops : Obligations.AccessBeyondTheChannelsStops := by
  intro s index v rest hindex hp
  have hnone : s.channels[indexChannel index]? = none :=
    List.getElem?_eq_none (by unfold indexChannel; omega)
  rcases hp with hp | hp
  · simp only [step_of_event hp, State.takeEvent, State.hostWrite, hnone]
  · simp only [step_of_event hp, State.takeEvent, State.hostRead, hnone]

section
variable {s t : State} {c : Nat}

/-- The sequencer's turn on a channel that exists has a next state. -/
theorem State.exists_runChannel (hc : c < s.channels.length) : ∃ t, s.runChannel c = .next t := by
  have hch := List.getElem?_eq_getElem hc
  rcases hb : s.channels[c].status.busy with _ | _
  · exact ⟨_, State.runChannel_of_not_busy hch hb⟩
  · exact ⟨_, State.runChannel_of_busy hch hb⟩

theorem State.firstBusy_lt (h : s.firstBusy = some c) : c < s.channels.length := by
  obtain ⟨_, hc, _⟩ := State.exists_of_firstBusy h
  exact (List.getElem?_eq_some_iff.mp hc).1

/-- An input that names an existing channel, or none, has a next state (R213). -/
theorem State.exists_takeEvent (e : Event) (he : e.inRange s.channels.length = true) :
    ∃ t, s.takeEvent e = .next t := by
  cases e with
  | write index v =>
    have hch := List.getElem?_eq_getElem (of_decide_eq_true he)
    simp only [State.takeEvent, State.hostWrite, hch]
    exact ⟨_, rfl⟩
  | read index =>
    have hch := List.getElem?_eq_getElem (of_decide_eq_true he)
    simp only [State.takeEvent, State.hostRead, hch]
    exact ⟨_, rfl⟩
  | wait c =>
    have hc : c < s.channels.length := of_decide_eq_true he
    simp only [State.takeEvent, State.waitFor, List.getElem?_eq_getElem hc]
    split
    · exact ⟨_, rfl⟩
    · split
      · exact State.exists_runChannel (s := { s with pending := .wait c :: s.pending }) hc
      · split
        · rename_i hfirst
          exact State.exists_runChannel (s := { s with pending := .wait c :: s.pending })
            (State.firstBusy_lt hfirst)
        · exact ⟨_, rfl⟩
  | complete c => exact State.exists_runChannel (of_decide_eq_true he)
  | advance c =>
    have hch := List.getElem?_eq_getElem (of_decide_eq_true he)
    simp only [State.takeEvent, State.advance, hch]
    split <;> exact ⟨_, rfl⟩
  | grant =>
    rcases hg : s.grantee with _ | c
    · simp only [State.takeEvent, State.grantOne, hg]
      exact ⟨_, rfl⟩
    · obtain ⟨_, hc, _⟩ := State.grantee_some hg
      simp only [State.takeEvent, State.grantOne, hg, hc]
      exact ⟨_, rfl⟩
  | reset => exact ⟨_, rfl⟩

/-- The sequencer's turn takes no input. -/
theorem State.runChannel_pending (h : s.runChannel c = .next t) : t.pending = s.pending := by
  obtain ⟨_, _, ⟨_, rfl⟩ | ⟨_, rfl⟩⟩ := State.runChannel_next h <;> rfl

/-- Only a WAIT puts an input back, and that is itself (R186). -/
theorem State.takeEvent_pending {e : Event} (h : s.takeEvent e = .next t) :
    t.pending = s.pending ∨ t.pending = e :: s.pending := by
  cases e with
  | write index v => obtain ⟨_, _, rfl⟩ := State.hostWrite_next h; exact .inl rfl
  | read index => obtain ⟨_, _, rfl⟩ := State.hostRead_next h; exact .inl rfl
  | wait c =>
    obtain ⟨_, _, ⟨_, rfl⟩ | ⟨_, d, hd, _⟩ | ⟨_, _, _, rfl⟩⟩ := State.waitFor_next h
    · exact .inl rfl
    · exact .inr (State.runChannel_pending hd)
    · exact .inr rfl
  | complete c => exact .inl (State.runChannel_pending h)
  | advance c => obtain ⟨_, _, ⟨_, rfl⟩ | ⟨_, rfl⟩⟩ := State.advance_next h <;> exact .inl rfl
  | grant => rcases State.grantOne_next h with ⟨_, rfl⟩ | ⟨_, _, _, _, _, rfl⟩ <;> exact .inl rfl
  | reset => injection h with h; subst h; exact .inl rfl

/-- No step makes up an input (log 1). -/
theorem step_pending_subset (h : step s = .next t) : t.pending ⊆ s.pending := by
  rcases step_next h with ⟨_, _, rfl⟩ | ⟨_, c, _, h⟩ | ⟨e, rest, hp, h⟩
  · exact List.Subset.refl _
  · rw [State.runChannel_pending h]
    exact List.Subset.refl _
  · rw [hp]
    rcases State.takeEvent_pending h with heq | heq <;> rw [heq]
    · exact List.subset_cons_self e rest
    · exact List.Subset.refl _

/-- A machine whose inputs name existing channels has a next state (R213). -/
theorem exists_step (hs : s.InputsExist) : ∃ t, step s = .next t := by
  rcases hp : s.pending with _ | ⟨e, rest⟩
  · rcases hf : s.firstBusy with _ | c
    · exact ⟨s, step_of_idle hp hf⟩
    · rw [step_of_busy hp hf]
      exact State.exists_runChannel (State.firstBusy_lt hf)
  · rw [step_of_event hp]
    exact State.exists_takeEvent e (hs e (hp ▸ List.mem_cons_self))

end

/-- Settles O32: the inputs after a step are among those before it, and so are the channels. -/
theorem noOtherFatalConditions : Obligations.NoOtherFatalConditions := by
  intro s hs
  obtain ⟨t, ht⟩ := exists_step hs
  refine ⟨t, ht, fun e he => ?_⟩
  rw [step_channels_length ht]
  exact hs e (step_pending_subset ht he)

/-! ### Every run uses up its inputs and its commands -/

/-- How many channels are busy. -/
def State.busyCount (s : State) : Nat := s.channels.countP fun ch => ch.status.busy

/-- What a run has left to do: a pending input may start a command, a busy channel completes. -/
def State.work (s : State) : Nat := 2 * s.pending.length + s.busyCount

/-- No channel is busy, and the next input, if there is one, is a WAIT that no poll will end. -/
def State.AtRest (s : State) : Prop :=
  s.firstBusy = none ∧ ∀ e, s.pending.head? = some e →
    ∃ c ch, e = .wait c ∧ s.channels[c]? = some ch ∧ ch.status.waitOver = false

section
variable {s t : State} {c : Nat} {ch ch' : Channel}

theorem State.not_busy_of_firstBusy_eq_none (h : s.firstBusy = none) :
    ∀ ch ∈ s.channels, ch.status.busy = false :=
  List.findIdx?_eq_none_iff.mp h

/-- Replacing a channel changes the count by that channel alone. -/
theorem State.busyCount_setChannel (hc : s.channels[c]? = some ch) (ch' : Channel) :
    (s.setChannel c ch').busyCount + ch.status.busy.toNat =
      s.busyCount + ch'.status.busy.toNat := by
  obtain ⟨hlt, rfl⟩ := List.getElem?_eq_some_iff.mp hc
  have htoNat (b : Bool) : b.toNat = if b = true then 1 else 0 := by cases b <;> rfl
  have hle : s.channels[c].status.busy.toNat ≤ s.busyCount := by
    rcases hb : s.channels[c].status.busy with _ | _
    · exact Nat.zero_le _
    · exact List.countP_pos_iff.mpr ⟨_, List.getElem_mem hlt, hb⟩
  simp only [State.busyCount, State.setChannel_channels, List.countP_set hlt, htoNat] at hle ⊢
  omega

/-- A completion leaves one busy channel fewer. -/
theorem State.runChannel_busyCount (hc : s.channels[c]? = some ch) (hb : ch.status.busy = true)
    (h : s.runChannel c = .next t) : t.busyCount < s.busyCount := by
  rw [State.runChannel_of_busy hc hb] at h
  injection h with h
  subst h
  have hset := State.busyCount_setChannel hc
    (ch.settle (byteValue ch.cmd ch.opa ch.opb) s.freshHidden)
  obtain ⟨_, _, _, _, hb'⟩ := ch.settle_keeps (byteValue ch.cmd ch.opa ch.opb) s.freshHidden
  rw [hb, hb'] at hset
  exact Nat.lt_of_succ_le hset.le

/-- No replacement adds more than one busy channel. -/
theorem State.busyCount_setChannel_le (hc : s.channels[c]? = some ch) (ch' : Channel) :
    (s.setChannel c ch').busyCount ≤ s.busyCount + 1 := by
  have hset := State.busyCount_setChannel hc ch'
  have hone := ch'.status.busy.toNat_le
  omega

theorem State.runChannel_work (h : s.runChannel c = .next t) : t.work ≤ s.work := by
  obtain ⟨ch, hc, ⟨_, rfl⟩ | ⟨hb, _⟩⟩ := State.runChannel_next h
  · exact Nat.le_refl _
  · have hcount := State.runChannel_busyCount hc hb h
    simp only [State.work, State.runChannel_pending h]
    omega

theorem State.runChannel_work_lt (hc : s.channels[c]? = some ch) (hb : ch.status.busy = true)
    (h : s.runChannel c = .next t) : t.work < s.work := by
  have hcount := State.runChannel_busyCount hc hb h
  simp only [State.work, State.runChannel_pending h]
  omega

theorem State.busyCount_resetInput (s : State) : s.resetInput.busyCount = 0 :=
  List.countP_eq_zero.mpr fun ch hch => by
    rw [State.eq_reset_of_mem_resetInput hch]
    decide

/-- Taking an input leaves less work than it stood for, or it is a WAIT that stays in vain. -/
theorem State.takeEvent_work {e : Event} (h : s.takeEvent e = .next t) :
    t.work < s.work + 2 ∨
    s.firstBusy = none ∧
      ∃ c ch, e = .wait c ∧ s.channels[c]? = some ch ∧ ch.status.waitOver = false := by
  have hone {c : Nat} {ch : Channel} (hc : s.channels[c]? = some ch) (ch' : Channel) :
      (s.setChannel c ch').work < s.work + 2 := by
    have hcount := State.busyCount_setChannel_le hc ch'
    simp only [State.work, State.setChannel_pending]
    omega
  cases e with
  | write index v =>
    obtain ⟨ch, hc, rfl⟩ := State.hostWrite_next h
    exact .inl (hone hc _)
  | read index =>
    obtain ⟨_, _, rfl⟩ := State.hostRead_next h
    exact .inl (Nat.lt_add_of_pos_right (by decide))
  | wait c =>
    obtain ⟨ch, hc, ⟨_, rfl⟩ | ⟨_, d, hd, hbusy⟩ | ⟨hover, _, hfirst, rfl⟩⟩ :=
      State.waitFor_next h
    · exact .inl (Nat.lt_add_of_pos_right (by decide))
    · left
      obtain ⟨ch', hc', hb⟩ : ∃ ch', s.channels[d]? = some ch' ∧ ch'.status.busy = true := by
        rcases hbusy with ⟨rfl, hb⟩ | hfirst
        · exact ⟨ch, hc, hb⟩
        · exact State.exists_of_firstBusy hfirst
      have hlt := State.runChannel_work_lt (s := { s with pending := .wait c :: s.pending })
        hc' hb hd
      simpa only [State.work, List.length_cons, Nat.mul_add, State.busyCount, Nat.add_right_comm]
        using hlt
    · exact .inr ⟨hfirst, c, ch, rfl, hc, hover⟩
  | complete c =>
    have hle := State.runChannel_work h
    exact .inl (hle.trans_lt (Nat.lt_add_of_pos_right (by decide)))
  | advance c =>
    obtain ⟨ch, hc, ⟨_, rfl⟩ | ⟨_, rfl⟩⟩ := State.advance_next h
    · exact .inl (Nat.lt_add_of_pos_right (by decide))
    · exact .inl (hone hc _)
  | grant =>
    rcases State.grantOne_next h with ⟨_, rfl⟩ | ⟨c, ch, _, hc, _, rfl⟩
    · exact .inl (Nat.lt_add_of_pos_right (by decide))
    · exact .inl (hone hc _)
  | reset =>
    injection h with h
    subst h
    left
    simp only [State.work, State.busyCount_resetInput, State.resetInput_pending]
    omega

/-- A step leaves less to do, or the machine is at rest. -/
theorem step_work (h : step s = .next t) : t.work < s.work ∨ s.AtRest := by
  rcases step_next h with ⟨hp, hf, rfl⟩ | ⟨hp, c, hf, hc⟩ | ⟨e, rest, hp, he⟩
  · exact .inr ⟨hf, by simp [hp]⟩
  · obtain ⟨_, hc', hb⟩ := State.exists_of_firstBusy hf
    exact .inl (State.runChannel_work_lt hc' hb hc)
  · rcases State.takeEvent_work he with hlt | ⟨hf, c, ch, rfl, hc, hover⟩
    · left
      simpa only [State.work, hp, List.length_cons, Nat.mul_add, State.busyCount,
        Nat.add_right_comm] using hlt
    · refine .inr ⟨hf, fun e he => ⟨c, ch, ?_, hc, hover⟩⟩
      rw [hp] at he
      exact (Option.some.inj he).symm

/-- A machine at rest stays so: it is idle, or its host polls in vain (R186, R243). -/
theorem step_atRest (hs : s.AtRest) (h : step s = .next t) : t.AtRest := by
  obtain ⟨hf, hwait⟩ := hs
  rcases hp : s.pending with _ | ⟨e, rest⟩
  · rw [step_of_idle hp hf] at h
    injection h with h
    exact h ▸ ⟨hf, hwait⟩
  · obtain ⟨c, ch, rfl, hc, hover⟩ := hwait e (by rw [hp]; rfl)
    have hb := State.not_busy_of_firstBusy_eq_none hf ch (List.mem_of_getElem? hc)
    have hf' : State.firstBusy { s with pending := rest } = none := hf
    simp only [step_of_event hp, State.takeEvent, State.waitFor, hc, hover, hb, hf',
      Bool.false_eq_true, if_false, ← hp] at h
    injection h with h
    exact h ▸ ⟨hf, hwait⟩

/-- At rest no channel is busy, after any number of steps. -/
theorem runSteps_atRest {k : Nat} (hs : s.AtRest) (h : runSteps k s = .next t) : t.AtRest := by
  induction k generalizing s with
  | zero =>
    injection h with h
    exact h ▸ hs
  | succ k ih =>
    rw [runSteps] at h
    split at h
    · rename_i hstep
      exact ih (step_atRest hs hstep) h
    · cases h
    · cases h

/-- After as many steps as there is work, no channel is busy. -/
theorem runSteps_not_busy {k : Nat} (hk : s.work ≤ k) (h : runSteps k s = .next t) :
    ∀ ch ∈ t.channels, ch.status.busy = false := by
  induction k generalizing s with
  | zero =>
    injection h with h
    have hcount : s.busyCount = 0 := by
      simp only [State.work] at hk
      omega
    exact fun ch hch => Bool.eq_false_iff.mpr (List.countP_eq_zero.mp hcount ch (h ▸ hch))
  | succ k ih =>
    have hrun := h
    rw [runSteps] at h
    split at h
    · rename_i hstep
      rcases step_work hstep with hlt | hrest
      · exact ih (by omega) h
      · obtain ⟨hf, _⟩ := runSteps_atRest hrest hrun
        exact State.not_busy_of_firstBusy_eq_none hf
    · cases h
    · cases h

end

/-- Settles O39: the inputs and the channels bound the work of a state. -/
theorem noChannelStaysBusyForEver : Obligations.NoChannelStaysBusyForEver := by
  intro s t k hk h
  have hcount : s.busyCount ≤ s.channels.length := List.countP_le_length
  refine runSteps_not_busy (Nat.le_trans ?_ hk) h
  simp only [State.work]
  omega

end Sys2Proof.Machine
end

section
/-! PROOFS. The arbiter (spec/20_memory.md R54, R55). A channel's distance is its place in the
order in which the arbiter looks at the channels; the grantee is the requesting channel at the
least distance, and a grant turns the order past it. -/

namespace Sys2Proof.Machine

/-! ### The round-robin order -/

/-- The channel at a distance from the arbiter's position (R55). -/
def State.channelAt (s : State) (d : Nat) : Nat := (s.nextGrant + d) % s.channels.length

/-- A remainder of a number below twice the divisor. -/
theorem mod_cases_of_lt_double {a n : Nat} (h : a < 2 * n) :
    a < n ∧ a % n = a ∨ n ≤ a ∧ a % n + n = a := by
  rcases Nat.lt_or_ge a n with hlt | hge
  · exact .inl ⟨hlt, Nat.mod_eq_of_lt hlt⟩
  · rw [Nat.mod_eq_sub_mod hge, Nat.mod_eq_of_lt (by omega)]
    omega

section
variable {s t : State} {c d e : Nat} {ch : Channel} {rest : List Event}

/-- The arbiter serves the requesting channel at the least distance, if there is one. -/
theorem State.grantee_eq_map (s : State) :
    s.grantee = ((List.range s.channels.length).find? fun d =>
      s.requestingAt (s.channelAt d)).map s.channelAt :=
  List.find?_map

theorem State.grantee_of_first (hd : d < s.channels.length)
    (hreq : s.requestingAt (s.channelAt d) = true)
    (hfirst : ∀ e, e < d → s.requestingAt (s.channelAt e) = false) :
    s.grantee = some (s.channelAt d) := by
  have hfind : ((List.range s.channels.length).find? fun d => s.requestingAt (s.channelAt d)) =
      some d :=
    List.find?_range_eq_some.mpr ⟨hreq, List.mem_range.mpr hd, fun e he => by
      rw [hfirst e he]
      rfl⟩
  rw [State.grantee_eq_map, hfind, Option.map_some]

/-- The position and a distance make the number of the channel there, less `NCH` past the end. -/
theorem State.channelAt_cases (hd : d < s.channels.length) :
    s.channelAt d < s.channels.length ∧
    (s.nextGrant % s.channels.length + d = s.channelAt d ∨
      s.nextGrant % s.channels.length + d = s.channelAt d + s.channels.length) := by
  have hg := Nat.mod_lt s.nextGrant (Nat.zero_lt_of_lt hd)
  have hcases := mod_cases_of_lt_double (a := s.nextGrant % s.channels.length + d)
    (n := s.channels.length) (by omega)
  rw [Nat.mod_add_mod] at hcases
  exact ⟨Nat.mod_lt _ (Nat.zero_lt_of_lt hd), by unfold State.channelAt; omega⟩

/-- The same of the number of a channel and its distance. -/
theorem State.grantDistance_cases (hc : c < s.channels.length) :
    s.grantDistance c < s.channels.length ∧
    (s.nextGrant % s.channels.length + s.grantDistance c = c ∨
      s.nextGrant % s.channels.length + s.grantDistance c = c + s.channels.length) := by
  have hg := Nat.mod_lt s.nextGrant (Nat.zero_lt_of_lt hc)
  have hcases := mod_cases_of_lt_double (n := s.channels.length)
    (a := c + s.channels.length - s.nextGrant % s.channels.length) (by omega)
  exact ⟨Nat.mod_lt _ (Nat.zero_lt_of_lt hc), by unfold State.grantDistance; omega⟩

/-- A channel is at its distance. -/
theorem State.channelAt_grantDistance (hc : c < s.channels.length) :
    s.channelAt (s.grantDistance c) = c := by
  obtain ⟨hlt, hdist⟩ := State.grantDistance_cases hc
  obtain ⟨_, hat⟩ := State.channelAt_cases hlt
  omega

/-- While a channel requests, a grant serves it or a channel at a lesser distance (R55). -/
theorem State.exists_grantee (hreq : s.requestingAt c = true) :
    ∃ d, d ≤ s.grantDistance c ∧ s.grantee = some (s.channelAt d) := by
  have hc := State.requestingAt_lt hreq
  obtain ⟨hlt, _⟩ := State.grantDistance_cases hc
  have hat : s.requestingAt (s.channelAt (s.grantDistance c)) = true := by
    rwa [State.channelAt_grantDistance hc]
  have hex : ∃ d, s.requestingAt (s.channelAt d) = true := ⟨_, hat⟩
  have hle : Nat.find hex ≤ s.grantDistance c := Nat.find_min' hex hat
  exact ⟨Nat.find hex, hle, State.grantee_of_first (hle.trans_lt hlt) (Nat.find_spec hex)
    fun e he => Bool.eq_false_iff.mpr (Nat.find_min hex he)⟩

/-- A position just past a nearer channel brings a channel strictly nearer (R55). -/
theorem State.grantDistance_lt (hc : c < s.channels.length) (hd : d < s.grantDistance c)
    (hlen : t.channels.length = s.channels.length)
    (hnext : t.nextGrant = (s.channelAt d + 1) % s.channels.length) :
    t.grantDistance c < s.grantDistance c := by
  obtain ⟨hlt, hdist⟩ := State.grantDistance_cases hc
  obtain ⟨hat_lt, hat⟩ := State.channelAt_cases (hd.trans hlt)
  obtain ⟨hlt', hdist'⟩ := State.grantDistance_cases (hc.trans_eq hlen.symm)
  have hcases := mod_cases_of_lt_double (n := s.channels.length) (a := s.channelAt d + 1) (by omega)
  rw [hlen, hnext, Nat.mod_mod] at hdist'
  omega

/-! ### A grant -/

/-- A grant serves the grantee and turns the position past it (R54, R55). -/
theorem step_grant (hp : s.pending = .grant :: rest) (hg : s.grantee = some c)
    (hc : s.channels[c]? = some ch) :
    ∃ t, step s = .next t ∧ t.channels = s.channels.set c (ch.granted s.freshHidden) ∧
      t.nextGrant = (c + 1) % s.channels.length ∧ t.pending = rest := by
  have hg' : State.grantee { s with pending := rest } = some c := hg
  simp only [step_of_event hp, State.takeEvent, State.grantOne, hg', hc]
  exact ⟨_, rfl, rfl, rfl, rfl⟩

/-- A grant with no channel requesting changes nothing. -/
theorem step_grant_none (hp : s.pending = .grant :: rest) (hg : s.grantee = none) :
    step s = .next { s with pending := rest } := by
  have hg' : State.grantee { s with pending := rest } = none := hg
  simp only [step_of_event hp, State.takeEvent, State.grantOne, hg']

theorem State.requestingAt_of_getElem? (hc : s.channels[c]? = some ch) :
    s.requestingAt c = ch.requesting := by
  simp only [State.requestingAt, hc]

end

/-- Settles O43: the least distance, the word at the address, and no grantee without a request. -/
theorem aGrantDeliversTheWord : Obligations.AGrantDeliversTheWord := by
  refine ⟨fun s d => State.grantee_of_first, fun s rest c ch p addr w hp hg hc hport hw => ?_,
    fun s rest hp hnone => step_grant_none hp ?_⟩
  · have hgranted : ch.granted s.freshHidden = { ch with romPort := .ready w } := by
      simp only [Channel.granted, hport, hw]
    rw [← hgranted]
    exact step_grant hp hg hc
  · exact List.find?_eq_none.mpr fun c _ => Bool.eq_false_iff.mp (hnone c)

/-- Settles O44: such a request takes the fault. -/
theorem aReadOutsideTheTablesFaults : Obligations.AReadOutsideTheTablesFaults := by
  intro s rest c ch p addr hp hg hc hport hnone
  have hgranted : ch.granted s.freshHidden = ch.takeFault s.freshHidden := by
    simp only [Channel.granted, hport]
    split
    · rename_i w hw
      exact absurd hw (hnone w)
    · rfl
  obtain ⟨t, ht, hchannels, _⟩ := step_grant hp hg hc
  rw [hgranted] at hchannels
  refine ⟨t, ch.takeFault s.freshHidden, ht, ?_, rfl, by simp [Status.byte], fun d hd => ?_⟩ <;>
    rw [hchannels]
  · exact State.setChannel_getElem?_self (s := s) hc _
  · exact State.setChannel_getElem?_ne (s := s) hd _

/-! ### Requests are granted in turn -/

section
variable {s t : State} {c : Nat} {rest : List Event}

/-- A grant serves a requesting channel, or another and brings it strictly nearer (R55). -/
theorem step_grant_of_requesting (hreq : s.requestingAt c = true)
    (hp : s.pending = .grant :: rest) :
    ∃ d t, s.grantee = some d ∧ step s = .next t ∧
      (d = c → t.requestingAt c = false) ∧
      (d ≠ c → t.requestingAt c = true ∧ t.grantDistance c < s.grantDistance c) ∧
      (s.grantDistance c = 0 → d = c) := by
  have hlt := State.requestingAt_lt hreq
  obtain ⟨d, hle, hg⟩ := State.exists_grantee hreq
  obtain ⟨ch, hc, _⟩ := State.grantee_some hg
  obtain ⟨t, hstep, hchannels, hnext, _⟩ := step_grant hp hg hc
  refine ⟨s.channelAt d, t, hg, hstep, ?_, fun hne => ⟨?_, ?_⟩, fun hzero => ?_⟩
  · rintro rfl
    have hserved : t.channels[s.channelAt d]? = some (ch.granted s.freshHidden) :=
      hchannels ▸ State.setChannel_getElem?_self (s := s) hc _
    rw [State.requestingAt_of_getElem? hserved, ch.granted_not_requesting]
  · have hother : t.channels[c]? = s.channels[c]? :=
      hchannels ▸ State.setChannel_getElem?_ne (s := s) hne.symm _
    simpa only [State.requestingAt, hother] using hreq
  · have hnear : d < s.grantDistance c := hle.lt_of_ne fun heq =>
      hne (heq ▸ State.channelAt_grantDistance hlt)
    exact State.grantDistance_lt hlt hnear (step_channels_length hstep) hnext
  · have hd : d = s.grantDistance c := by omega
    rw [hd, State.channelAt_grantDistance hlt]

/-- No input but a grant or the reset moves the position (R55). -/
theorem step_nextGrant (h : step s = .next t) (hgrant : s.pending.head? ≠ some .grant)
    (hreset : s.pending.head? ≠ some .reset) : t.nextGrant = s.nextGrant := by
  rcases step_next h with ⟨_, _, rfl⟩ | ⟨_, c, _, h⟩ | ⟨e, rest, hp, h⟩
  · rfl
  · exact (State.runChannel_frame h).2
  · rw [hp, List.head?_cons, Option.some_inj.ne] at hgrant hreset
    cases e with
    | write index v => obtain ⟨_, _, rfl⟩ := State.hostWrite_next h; rfl
    | read index => obtain ⟨_, _, rfl⟩ := State.hostRead_next h; rfl
    | wait c =>
      obtain ⟨_, _, ⟨_, rfl⟩ | ⟨_, d, hd, _⟩ | ⟨_, _, _, rfl⟩⟩ := State.waitFor_next h
      · rfl
      · exact (State.runChannel_frame hd).2
      · rfl
    | complete c => exact (State.runChannel_frame h).2
    | advance c => obtain ⟨_, _, ⟨_, rfl⟩ | ⟨_, rfl⟩⟩ := State.advance_next h <;> rfl
    | grant => exact absurd rfl hgrant
    | reset => exact absurd rfl hreset

/-- After a reset no channel is requesting. -/
theorem State.requestingAt_resetInput (s : State) (c : Nat) :
    s.resetInput.requestingAt c = false := by
  unfold State.requestingAt
  split
  · rename_i ch hc
    rw [State.eq_reset_of_mem_resetInput (List.mem_of_getElem? hc)]
    rfl
  · rfl

/-- A step after which a channel is still requesting used up some of its distance if it was a grant,
and none otherwise. -/
theorem step_grantDistance (hreq : s.requestingAt c = true) (hreq' : t.requestingAt c = true)
    (h : step s = .next t) :
    (if s.pending.head? == some .grant then 1 else 0) + t.grantDistance c ≤
      s.grantDistance c := by
  by_cases hgrant : s.pending.head? = some .grant
  · obtain ⟨rest, hp⟩ := List.head?_eq_some_iff.mp hgrant
    obtain ⟨d, t', _, hstep, hserved, hother, _⟩ := step_grant_of_requesting hreq hp
    obtain rfl : t' = t := Host.Outcome.next.inj (hstep.symm.trans h)
    have hne : d ≠ c := fun heq => by simp [hserved heq] at hreq'
    simp only [hgrant, beq_self_eq_true, if_true]
    have hlt := (hother hne).2
    omega
  · have hreset : s.pending.head? ≠ some .reset := fun hreset => by
      obtain ⟨rest, hp⟩ := List.head?_eq_some_iff.mp hreset
      rw [step_of_event hp] at h
      injection h with h
      simp [← h, State.requestingAt_resetInput] at hreq'
    simp [hgrant, State.grantDistance, step_nextGrant h hgrant hreset, step_channels_length h]

/-- Along a run the grants taken and the distance left make at most the distance at first. -/
theorem countP_grants_add_le {path : Nat → State} {k : Nat}
    (hstep : ∀ j, j < k → step (path j) = .next (path (j + 1)))
    (hreq : ∀ j, j ≤ k → (path j).requestingAt c = true) :
    (List.range k).countP (fun j => (path j).pending.head? == some .grant) +
      (path k).grantDistance c ≤ (path 0).grantDistance c := by
  induction k with
  | zero => simp
  | succ k ih =>
    have hbefore := ih (fun j hj => hstep j (by omega)) (fun j hj => hreq j (by omega))
    have hlast := step_grantDistance (hreq k (by omega)) (hreq (k + 1) (by omega))
      (hstep k (by omega))
    rw [List.range_succ, List.countP_append, List.countP_singleton]
    omega

end

/-- Settles O45: the grantee is no further away than `c`, and the position moves past it. -/
theorem everyRequestIsGrantedInTurn : Obligations.EveryRequestIsGrantedInTurn :=
  ⟨fun _ _ _ hreq hp => ⟨(State.grantDistance_cases (State.requestingAt_lt hreq)).1,
    step_grant_of_requesting hreq hp⟩, fun _ _ => step_nextGrant⟩

/-- Settles O46: the distance at first is at most `NCH - 1`. -/
theorem aWaitingRequestIsPassedOverFewTimes :
    Obligations.AWaitingRequestIsPassedOverFewTimes := by
  intro path k c hstep hreq
  have hcount := countP_grants_add_le hstep hreq
  obtain ⟨hlt, _⟩ := State.grantDistance_cases (State.requestingAt_lt (hreq 0 (Nat.zero_le k)))
  omega

end Sys2Proof.Machine
end

section
/-! PROOFS. The ROM map (spec/20_memory.md R42, R43) and the remaining facts about bytes
(spec/30_encoding.md R71, R72, spec/10_state.md R15). -/

namespace Sys2Proof.Machine

/-! ### The ROM map -/

/-- A table holds a word at exactly the indices below its length (R42, R43). -/
theorem memRead_romAddr_iff (t : Table) (i : BitVec 5) :
    (∃ w, memRead (romAddr t i) = .ok w) ↔ i.toNat < (romTable t).length := by
  constructor
  · rintro ⟨w, hw⟩
    by_contra hge
    rw [memRead_romAddr_none (List.getElem?_eq_none (Nat.not_lt.mp hge))] at hw
    cases hw
  · exact fun hlt => ⟨_, memRead_romAddr (List.getElem?_eq_getElem hlt)⟩

theorem romTable_length (t : Table) :
    (romTable t).length = [20, 20, 9, 20, 8, 20, 1, 0].getD t.toNat 0 := by
  revert t
  decide

/-- Settles O48: the lengths of the eight tables. -/
theorem theRomMapIsTheTables : Obligations.TheRomMapIsTheTables := by
  intro t i
  rw [← romTable_length]
  exact memRead_romAddr_iff t i

/-! ### The command byte and the STATUS byte -/

/-- Settles O2: the one direction is the inverse law, the other the uniqueness of encodings. -/
theorem decodeAndEncodeAgree : Obligations.DecodeAndEncodeAgree :=
  fun i _ => ⟨fun h => (eq_encode_of_decode h).symm, fun h => h ▸ decode_encode i⟩

/-- Settles O17: the evaluation of each of the six does not mention the second operand. -/
theorem oneOperandCommandsIgnoreOpb : Obligations.OneOperandCommandsIgnoreOpb := by
  intro i a b b' hi
  rw [specExec_of_decode (decode_encode i), specExec_of_decode (decode_encode i)]
  rcases hi with rfl | rfl | rfl | rfl | rfl | rfl <;> rfl

/-- Settles O24: over the 64 values of the four fields. -/
theorem statusByteHasItsFieldsInPlace : Obligations.StatusByteHasItsFieldsInPlace := by
  rintro ⟨busy, done, err, fault⟩
  revert busy done err fault
  decide

end Sys2Proof.Machine
end

section
/-! PROOFS. `POW2` (spec/42_pow2.md R131 to R135) and `POW` (spec/44_derived.md R174). -/

namespace Sys2Proof.Machine

/-! ### The value of `POW2` -/

section
variable {a p l x : Word}

/-- From `192·2^64` on there is no result (R131). -/
theorem pow2Q_of_ge (h : 192 * 2 ^ 64 ≤ x.toNat) : pow2Q x = .error (.failure .overflow) :=
  if_pos h

/-- `ONE` shifted left is a power of two (R134). -/
theorem oneQ_shiftLeft (k : Nat) : oneQ <<< k = BitVec.ofNat 256 (2 ^ (64 + k)) := by
  apply BitVec.eq_of_toNat_eq
  rw [BitVec.toNat_shiftLeft, BitVec.toNat_ofNat, Nat.shiftLeft_eq, Nat.pow_add]
  rfl

/-- Below it the engine answers the product shifted left (R134, R135). -/
theorem pow2Q_of_lt (h : x.toNat < 192 * 2 ^ 64) :
    ∃ v, pow2Q x = .ok v ∧ v.toNat = refPow2 x.toNat := by
  obtain ⟨r, hr, hvalue⟩ := fracLoop_log2 (fracPart x)
  obtain ⟨_, hhigh⟩ := refFraction_log2T_bounds (fracPart x).toNat
  obtain ⟨hmul, hshift⟩ := mulQ_two_pow_of_lt_two (r := r) (k := intPart x)
    (by rw [hvalue]; exact hhigh.trans_lt (by decide)) (by unfold intPart; omega)
  refine ⟨r <<< intPart x, ?_, ?_⟩
  · simp only [pow2Q, Nat.not_le.mpr h, if_false, bind, Except.bind, hr, oneQ_shiftLeft, hmul]
  · rw [hshift, hvalue, refFraction_fracPart]
    rfl

/-! ### The composition of `POW` -/

/-- A logarithm that fails makes `POW` fail with it (R174). -/
theorem powQ_of_lt (h : a.toNat < 2 ^ 64) : powQ a p = .error (.failure .domainError) := by
  rw [powQ, log2Q_of_lt h]
  rfl

/-- After a logarithm that succeeds the two other stages remain (R174). -/
theorem powQ_of_log2Q (hlog : log2Q a = .ok l) : powQ a p = mulQ p l >>= pow2Q := by
  rw [powQ, hlog]
  rfl

/-- A product that overflows makes `POW` fail with it (R174). -/
theorem powQ_of_overflow (ha : 2 ^ 64 ≤ a.toNat) (hover : 2 ^ 320 ≤ p.toNat * refLog2 a.toNat) :
    powQ a p = .error (.failure .overflow) := by
  have hlog := log2Q_of_ge ha
  rw [← log2Q_ok hlog] at hover
  rw [powQ_of_log2Q hlog, mulQ_eq_overflow_iff.mpr hover]
  rfl

/-- Where both stages succeed `POW` is `POW2` of the floored product (R174). -/
theorem powQ_eq_pow2Q (ha : 2 ^ 64 ≤ a.toNat)
    (hx : x.toNat = p.toNat * refLog2 a.toNat / 2 ^ 64) : powQ a p = pow2Q x := by
  have hlog := log2Q_of_ge ha
  rw [← log2Q_ok hlog] at hx
  rw [powQ_of_log2Q hlog, mulQ_eq_ok_iff.mpr hx]
  rfl

end

/-- Settles O11: the domain test, then the shifted product. -/
theorem pow2CompletesWithShiftedProduct : Obligations.Pow2CompletesWithShiftedProduct := by
  refine ⟨rfl, fun s a b hrun => ?_⟩
  by_cases hlt : a.toNat < 192 * 2 ^ 64
  · obtain ⟨v, hv, hvalue⟩ := pow2Q_of_lt hlt
    simp only [hlt, if_true, ← hvalue, BitVec.ofNat_toNat, BitVec.setWidth_eq]
    exact exec_completes_ok (i := .pow2) hrun hv
  · simp only [hlt, if_false]
    exact exec_completes_failure (i := .pow2) hrun (pow2Q_of_ge (Nat.not_lt.mp hlt))

/-- Settles O15: the failures in the order of the stages, then the value of the last stage. -/
theorem powCompletesWithComposition : Obligations.PowCompletesWithComposition := by
  refine ⟨rfl, fun s a p hrun => ?_⟩
  by_cases ha : a.toNat < 2 ^ 64
  · simp only [ha, if_true]
    exact exec_completes_failure (i := .pow) hrun (powQ_of_lt ha)
  have hge := Nat.not_lt.mp ha
  by_cases hover : 2 ^ 320 ≤ p.toNat * refLog2 a.toNat
  · simp only [ha, hover, if_true, if_false]
    exact exec_completes_failure (i := .pow) hrun (powQ_of_overflow hge hover)
  have hfits : p.toNat * refLog2 a.toNat / 2 ^ 64 < 2 ^ 256 := by omega
  have hx := (BitVec.toNat_ofNat (w := 256) _).trans (Nat.mod_eq_of_lt hfits)
  have hvalue := powQ_eq_pow2Q hge hx
  by_cases hdomain : 192 * 2 ^ 64 ≤ p.toNat * refLog2 a.toNat / 2 ^ 64
  · simp only [ha, hover, hdomain, if_true, if_false]
    exact exec_completes_failure (i := .pow) hrun
      (hvalue.trans (pow2Q_of_ge (hdomain.trans_eq hx.symm)))
  · obtain ⟨v, hv, hval⟩ := pow2Q_of_lt (hx.trans_lt (Nat.not_le.mp hdomain))
    rw [hx] at hval
    simp only [ha, hover, hdomain, if_false, ← hval, BitVec.ofNat_toNat, BitVec.setWidth_eq]
    exact exec_completes_ok (i := .pow) hrun (hvalue.trans hv)

end Sys2Proof.Machine
end

section
/-! PROOFS. `EXP` (spec/43_exp.md R150 to R153). Each factor is at least 1.0, so the
multiplications overflow exactly when the whole product does; and each fractional factor is at
least the product of all the later ones, so the product grows with the fraction, and the boundary
of R153 is one of the operand. -/

namespace Sys2Proof.Machine

/-! ### The integer loop with factors of at least 1.0 -/

section
variable {tbl : List Word} {k r r' j n : Nat}

/-- A factor of at least 1.0 does not lower the product. -/
theorem le_intStep (h : 2 ^ 64 ≤ (tbl.getD j 0).toNat) : r ≤ intStep tbl k r j := by
  rcases hk : k.testBit j with _ | _
  · rw [intStep_of_clear hk]
  · rw [intStep_of_set hk, Nat.le_div_iff_mul_le (Nat.two_pow_pos 64)]
    exact Nat.mul_le_mul_left r h

theorem le_foldl_intStep (hfactor : ∀ j < 8, 2 ^ 64 ≤ (tbl.getD j 0).toNat) (hn : n + j ≤ 8) :
    r ≤ (List.range' j n).foldl (intStep tbl k) r := by
  induction n generalizing j r with
  | zero => exact Nat.le_refl r
  | succ n ih =>
    rw [List.range'_succ, List.foldl_cons]
    exact (le_intStep (hfactor j (by omega))).trans (ih (by omega))

theorem intStep_mono (hr : r ≤ r') : intStep tbl k r j ≤ intStep tbl k r' j := by
  rcases hk : k.testBit j with _ | _
  · rwa [intStep_of_clear hk, intStep_of_clear hk]
  · rw [intStep_of_set hk, intStep_of_set hk]
    exact Nat.div_le_div_right (Nat.mul_le_mul_right _ hr)

theorem refInteger_mono (hr : r ≤ r') : refInteger tbl k r ≤ refInteger tbl k r' :=
  List.foldl_rel hr fun _ _ _ _ hle => intStep_mono hle

theorem le_refInteger (hfactor : ∀ j < 8, 2 ^ 64 ≤ (tbl.getD j 0).toNat) :
    r ≤ refInteger tbl k r := by
  rw [refInteger_eq_foldl, List.range_eq_range']
  exact le_foldl_intStep hfactor (by decide)

end

section
variable {t : Table} {k n j : Nat} {r : Word}
  (hlen : 8 ≤ (romTable t).length)
include hlen

/-- Where the whole product fits, every product on the way does. -/
theorem intLoop_of_fits (hfactor : ∀ j < 8, 2 ^ 64 ≤ ((romTable t).getD j 0).toNat)
    (hn : n + j ≤ 8)
    (hfits : (List.range' j n).foldl (intStep (romTable t) k) r.toNat < 2 ^ 256) :
    ∃ v, intLoop t k n j r = .ok v ∧
      v.toNat = (List.range' j n).foldl (intStep (romTable t) k) r.toNat := by
  induction n generalizing j r with
  | zero => exact ⟨r, rfl, rfl⟩
  | succ n ih =>
    rw [List.range'_succ, List.foldl_cons] at hfits ⊢
    have hlt := (le_foldl_intStep hfactor (by omega)).trans_lt hfits
    have hvalue := (BitVec.toNat_ofNat (w := 256) _).trans (Nat.mod_eq_of_lt hlt)
    obtain ⟨v, hv, hfold⟩ := ih (j := j + 1) (by omega) (by rwa [hvalue])
    exact ⟨v, (intLoop_succ hlen (by omega) hvalue).trans hv, by rw [hfold, hvalue]⟩

/-- Where the whole product does not fit, some product on the way does not. -/
theorem intLoop_of_overflow (hn : n + j ≤ 8)
    (hover : 2 ^ 256 ≤ (List.range' j n).foldl (intStep (romTable t) k) r.toNat) :
    intLoop t k n j r = .error (.failure .overflow) := by
  induction n generalizing j r with
  | zero => exact absurd r.isLt (Nat.not_lt.mpr hover)
  | succ n ih =>
    rw [List.range'_succ, List.foldl_cons] at hover
    rcases Nat.lt_or_ge (intStep (romTable t) k r.toNat j) (2 ^ 256) with hlt | hge
    · have hvalue := (BitVec.toNat_ofNat (w := 256) _).trans (Nat.mod_eq_of_lt hlt)
      rw [intLoop_succ hlen (by omega) hvalue]
      exact ih (by omega) (by rwa [hvalue])
    · rcases hbit : k.testBit j with _ | _
      · rw [intStep_of_clear hbit] at hge
        exact absurd r.isLt (Nat.not_lt.mpr hge)
      · rw [intStep_of_set hbit] at hge
        rw [intLoop, hbit, if_pos rfl, rom_of_lt (by omega) (by omega)]
        simp only [bind, Except.bind, mulQ_of_overflow hge]

end

/-! ### The two tables of `EXP` -/

theorem expPosT_ge_one : ∀ j < 8, 2 ^ 64 ≤ (expPosT.getD j 0).toNat := by decide +kernel

theorem expNegT_ge_one : ∀ i < 20, 2 ^ 64 ≤ (expNegT.getD i 0).toNat :=
  fun i hi => (expNegT_range i hi).1.le

theorem fracLoop_expNeg (f : BitVec 64) :
    ∃ v, fracLoop tblExpNeg f 20 0 oneQ = .ok v ∧ v.toNat = refFraction expNegT f.toNat :=
  fracLoop_eq_refFraction (t := tblExpNeg) expNegT_length (fun i hi => (expNegT_range i hi).2.le) f

theorem refFraction_expNegT_allOnes :
    refFraction expNegT (BitVec.allOnes 64).toNat = 0x2B7E125E47732F252 :=
  refFraction_allOnes (t := tblExpNeg) expNegT_length (fun i hi => (expNegT_range i hi).2.le)
    expNegT_fold

/-- The product of the fractional factors lies between that of none and that of all (R153). -/
theorem refFraction_expNegT_bounds (x : Nat) :
    2 ^ 64 ≤ refFraction expNegT x ∧ refFraction expNegT x ≤ 0x2B7E125E47732F252 := by
  rw [← refFraction_expNegT_allOnes, ← refFraction_zero expNegT]
  exact ⟨refFraction_mono expNegT_ge_one fun i _ h => by simp at h,
    refFraction_mono expNegT_ge_one fun i _ _ => fracBit_allOnes i⟩

/-! ### The value of `EXP` -/

section
variable {a : Word}

/-- From `134·2^64` on there is no result (R151). -/
theorem expQ_of_ge (h : 134 * 2 ^ 64 ≤ a.toNat) : expQ a = .error (.failure .overflow) :=
  if_pos h

/-- Below it the loop over the integer part goes on from the fractional product (R152). -/
theorem expQ_of_lt (h : a.toNat < 134 * 2 ^ 64) :
    ∃ r : Word, expQ a = intLoop tblExpPos (intPart a) 8 0 r ∧
      refExp a.toNat = (List.range' 0 8).foldl (intStep expPosT (intPart a)) r.toNat := by
  obtain ⟨r, hr, hvalue⟩ := fracLoop_expNeg (fracPart a)
  refine ⟨r, ?_, ?_⟩
  · simp only [expQ, Nat.not_le.mpr h, if_false, bind, Except.bind, hr]
  · rw [hvalue, refFraction_fracPart, ← List.range_eq_range', ← refInteger_eq_foldl]
    rfl

/-- A product that fits is the result (R152). -/
theorem expQ_of_fits (h : a.toNat < 134 * 2 ^ 64) (hfits : refExp a.toNat < 2 ^ 256) :
    ∃ v, expQ a = .ok v ∧ v.toNat = refExp a.toNat := by
  obtain ⟨r, hloop, hfold⟩ := expQ_of_lt h
  rw [hfold] at hfits ⊢
  rw [hloop]
  exact intLoop_of_fits (t := tblExpPos) (by decide) expPosT_ge_one (by decide) hfits

/-- A product that does not is an overflow (R152). -/
theorem expQ_of_overflow (hover : 2 ^ 256 ≤ refExp a.toNat) :
    expQ a = .error (.failure .overflow) := by
  rcases Nat.lt_or_ge a.toNat (134 * 2 ^ 64) with hlt | hge
  · obtain ⟨r, hloop, hfold⟩ := expQ_of_lt hlt
    rw [hfold] at hover
    rw [hloop]
    exact intLoop_of_overflow (t := tblExpPos) (by decide) (by decide) hover
  · exact expQ_of_ge hge

end

/-- Settles O13: the guard, then the product, when it fits. -/
theorem expCompletesWithFactorProduct : Obligations.ExpCompletesWithFactorProduct := by
  refine ⟨rfl, fun s a b hrun => ?_⟩
  by_cases hdomain : a.toNat < 134 * 2 ^ 64 ∧ refExp a.toNat < 2 ^ 256
  · obtain ⟨v, hv, hvalue⟩ := expQ_of_fits hdomain.1 hdomain.2
    simp only [if_pos hdomain]
    simp only [← hvalue, BitVec.ofNat_toNat, BitVec.setWidth_eq]
    exact exec_completes_ok (i := .exp) hrun hv
  · simp only [if_neg hdomain]
    refine exec_completes_failure (i := .exp) (f := .overflow) hrun ?_
    rcases Nat.lt_or_ge a.toNat (134 * 2 ^ 64) with hlt | hge
    · exact expQ_of_overflow (Nat.not_lt.mp fun hfits => hdomain ⟨hlt, hfits⟩)
    · exact expQ_of_ge hge

/-! ### The product grows with the fraction -/

/-- The exact product of the factors `i` to `i + n - 1`. -/
def factorProduct (tbl : List Word) (i n : Nat) : Nat :=
  ((List.range' i n).map fun j => (tbl.getD j 0).toNat).prod

theorem factorProduct_succ (tbl : List Word) (i n : Nat) :
    factorProduct tbl i (n + 1) = (tbl.getD i 0).toNat * factorProduct tbl (i + 1) n := by
  rw [factorProduct, List.range'_succ, List.map_cons, List.prod_cons, factorProduct]

section
variable {tbl : List Word} {x y r r' i n : Nat}

/-- With a factor of at least 1.0 a step multiplies by that factor at most. -/
theorem fracStep_mul_le (h : 2 ^ 64 ≤ (tbl.getD i 0).toNat) :
    fracStep tbl x r i * 2 ^ 64 ≤ r * (tbl.getD i 0).toNat := by
  rcases hx : x.testBit (63 - i) with _ | _
  · rw [fracStep_of_clear hx]
    exact Nat.mul_le_mul_left r h
  · rw [fracStep_of_set hx]
    exact Nat.div_mul_le_self ..

variable (hfactor : ∀ i < 20, 2 ^ 64 ≤ (tbl.getD i 0).toNat)
include hfactor

theorem le_foldl_fracStep (hn : i + n ≤ 20) :
    r ≤ (List.range' i n).foldl (fracStep tbl x) r := by
  induction n generalizing i r with
  | zero => exact Nat.le_refl r
  | succ n ih =>
    rw [List.range'_succ, List.foldl_cons]
    exact (le_fracStep (hfactor i (by omega))).trans (ih (by omega))

/-- The floored products give at most the exact one. -/
theorem foldl_fracStep_mul_le (hn : i + n ≤ 20) :
    (List.range' i n).foldl (fracStep tbl x) r * 2 ^ (64 * n) ≤ r * factorProduct tbl i n := by
  induction n generalizing i r with
  | zero => exact Nat.le_refl _
  | succ n ih =>
    rw [List.range'_succ, List.foldl_cons, factorProduct_succ, Nat.mul_succ, Nat.pow_add,
      ← Nat.mul_assoc, ← Nat.mul_assoc]
    calc (List.range' (i + 1) n).foldl (fracStep tbl x) (fracStep tbl x r i) * 2 ^ (64 * n) * 2 ^ 64
        ≤ fracStep tbl x r i * factorProduct tbl (i + 1) n * 2 ^ 64 :=
          Nat.mul_le_mul_right _ (ih (by omega))
      _ = fracStep tbl x r i * 2 ^ 64 * factorProduct tbl (i + 1) n := Nat.mul_right_comm ..
      _ ≤ r * (tbl.getD i 0).toNat * factorProduct tbl (i + 1) n :=
          Nat.mul_le_mul_right _ (fracStep_mul_le (hfactor i (by omega)))

variable (hdominates : ∀ i < 20,
  factorProduct tbl (i + 1) (19 - i) * 2 ^ 64 ≤ (tbl.getD i 0).toNat * 2 ^ (64 * (19 - i)))
include hdominates

/-- A factor gives no less than all the later ones together. -/
theorem foldl_fracStep_le_factor (hi : i < 20) :
    (List.range' (i + 1) (19 - i)).foldl (fracStep tbl x) r ≤
      r * (tbl.getD i 0).toNat / 2 ^ 64 := by
  have hfold := foldl_fracStep_mul_le (tbl := tbl) (x := x) (r := r) (i := i + 1) (n := 19 - i)
    hfactor (by omega)
  rw [Nat.le_div_iff_mul_le (Nat.two_pow_pos 64)]
  refine Nat.le_of_mul_le_mul_right ?_ (Nat.two_pow_pos (64 * (19 - i)))
  calc (List.range' (i + 1) (19 - i)).foldl (fracStep tbl x) r * 2 ^ 64 * 2 ^ (64 * (19 - i))
      = (List.range' (i + 1) (19 - i)).foldl (fracStep tbl x) r * 2 ^ (64 * (19 - i)) * 2 ^ 64 :=
        Nat.mul_right_comm ..
    _ ≤ r * factorProduct tbl (i + 1) (19 - i) * 2 ^ 64 := Nat.mul_le_mul_right _ hfold
    _ = r * (factorProduct tbl (i + 1) (19 - i) * 2 ^ 64) := Nat.mul_assoc ..
    _ ≤ r * ((tbl.getD i 0).toNat * 2 ^ (64 * (19 - i))) := Nat.mul_le_mul_left r (hdominates i hi)
    _ = r * (tbl.getD i 0).toNat * 2 ^ (64 * (19 - i)) := (Nat.mul_assoc ..).symm

/-- Where two fractions first differ in a bit, the later bits cannot make up for it. -/
theorem foldl_fracStep_mono_of_le (hn : i + n = 20) (hxy : x % 2 ^ (64 - i) ≤ y % 2 ^ (64 - i))
    (hr : r ≤ r') :
    (List.range' i n).foldl (fracStep tbl x) r ≤ (List.range' i n).foldl (fracStep tbl y) r' := by
  induction n generalizing i r r' with
  | zero => exact hr
  | succ n ih =>
    have hbits (z : Nat) : z % 2 ^ (64 - i) =
        z % 2 ^ (63 - i) + 2 ^ (63 - i) * (z.testBit (63 - i)).toNat := by
      rw [show 64 - i = 63 - i + 1 by omega, Nat.mod_pow_succ, Nat.toNat_testBit]
    have hrest (z : Nat) : z % 2 ^ (63 - i) < 2 ^ (63 - i) := Nat.mod_lt _ (Nat.two_pow_pos _)
    have hx := hrest x
    have hy := hrest y
    have hfactor_i := hfactor i (by omega)
    rw [hbits, hbits] at hxy
    rw [List.range'_succ, List.foldl_cons, List.foldl_cons]
    have hsame (hbit : x.testBit (63 - i) = y.testBit (63 - i)) :
        (List.range' (i + 1) n).foldl (fracStep tbl x) (fracStep tbl x r i) ≤
          (List.range' (i + 1) n).foldl (fracStep tbl y) (fracStep tbl y r' i) := by
      refine ih (by omega) ?_ (fracStep_mono hfactor_i (fun h => hbit ▸ h) hr)
      rw [show 64 - (i + 1) = 63 - i by omega]
      rw [hbit] at hxy
      exact Nat.le_of_add_le_add_right hxy
    rcases hbx : x.testBit (63 - i) with _ | _ <;> rcases hby : y.testBit (63 - i) with _ | _
    · exact hsame (hbx.trans hby.symm)
    · rw [fracStep_of_clear hbx, fracStep_of_set hby]
      have hn' : n = 19 - i := by omega
      calc (List.range' (i + 1) n).foldl (fracStep tbl x) r
          ≤ r * (tbl.getD i 0).toNat / 2 ^ 64 :=
            hn' ▸ foldl_fracStep_le_factor hfactor hdominates (by omega)
        _ ≤ r' * (tbl.getD i 0).toNat / 2 ^ 64 :=
            Nat.div_le_div_right (Nat.mul_le_mul_right _ hr)
        _ ≤ _ := le_foldl_fracStep hfactor (by omega)
    · simp only [hbx, hby, Bool.toNat_true, Bool.toNat_false] at hxy
      omega
    · exact hsame (hbx.trans hby.symm)

theorem refFraction_mono_of_le (hxy : x % 2 ^ 64 ≤ y % 2 ^ 64) :
    refFraction tbl x ≤ refFraction tbl y := by
  rw [refFraction_eq_foldl, refFraction_eq_foldl, List.range_eq_range']
  exact foldl_fracStep_mono_of_le hfactor hdominates (by decide) hxy (Nat.le_refl _)

end

/-! ### The boundary of `EXP` -/

/-- Each fractional factor is at least the product of the later ones: e^(2^-(i+1)) against
e^(2^-(i+1) - 2^-20), up to rounding (R47). -/
theorem expNegT_dominates : ∀ i < 20,
    factorProduct expNegT (i + 1) (19 - i) * 2 ^ 64 ≤
      (expNegT.getD i 0).toNat * 2 ^ (64 * (19 - i)) := by
  decide +kernel

/-- Of two operands with the same integer part the greater has no smaller product. -/
theorem refExp_mono_of_same_intPart {x y : Nat} (hint : x / 2 ^ 64 = y / 2 ^ 64) (hxy : x ≤ y) :
    refExp x ≤ refExp y := by
  rw [refExp, refExp, hint]
  exact refInteger_mono (refFraction_mono_of_le expNegT_ge_one expNegT_dominates (by omega))

theorem le_refExp (a : Nat) : 2 ^ 64 ≤ refExp a :=
  (refFraction_expNegT_bounds a).1.trans (le_refInteger expPosT_ge_one)

/-- Up to integer part 132 even the greatest fractional product fits (R153). -/
theorem refInteger_expPosT_lt :
    ∀ k < 133, refInteger expPosT k 0x2B7E125E47732F252 < 2 ^ 256 := by
  decide +kernel

/-- The last operand that succeeds (R153, vector EXP-17). -/
theorem refExp_boundary_lt : refExp 0x851591FFFFFFFFFFFF < 2 ^ 256 := by decide +kernel

/-- The first operand that overflows (R153, vector EXP-18). -/
theorem refExp_past_boundary_ge : 2 ^ 256 ≤ refExp 0x851592000000000000 := by decide +kernel

section
variable {a : Nat}

/-- Up to the boundary every product fits: with integer part 133 by comparison with the boundary. -/
theorem refExp_lt_of_le_boundary (h : a ≤ 0x851591FFFFFFFFFFFF) : refExp a < 2 ^ 256 := by
  rcases Nat.lt_or_ge (a / 2 ^ 64) 133 with hlt | hge
  · exact (refInteger_mono (refFraction_expNegT_bounds a).2).trans_lt
      (refInteger_expPosT_lt _ hlt)
  · exact (refExp_mono_of_same_intPart (by omega) h).trans_lt refExp_boundary_lt

/-- Past the boundary no product below the guard fits. -/
theorem refExp_ge_of_boundary_lt (h : 0x851591FFFFFFFFFFFF < a) (hguard : a < 134 * 2 ^ 64) :
    2 ^ 256 ≤ refExp a :=
  refExp_past_boundary_ge.trans (refExp_mono_of_same_intPart (by omega) h)

end

/-- Settles O58: the product fits exactly up to the boundary, and is at least 1.0. -/
theorem expSucceedsExactlyUpToItsBoundary : Obligations.ExpSucceedsExactlyUpToItsBoundary := by
  refine fun a => ⟨fun hle => ?_, fun hlt => ?_⟩
  · obtain ⟨v, hv, hvalue⟩ := expQ_of_fits (a := a) (by omega) (refExp_lt_of_le_boundary hle)
    exact ⟨v, hv, hvalue ▸ le_refExp a.toNat⟩
  · rcases Nat.lt_or_ge a.toNat (134 * 2 ^ 64) with hguard | hge
    · exact expQ_of_overflow (refExp_ge_of_boundary_lt hlt hguard)
    · exact expQ_of_ge hge

end Sys2Proof.Machine
end
